-- ==== Sys2Proof/Word.lean ====
section
/-! DEFINITION. The two word types of the block: a byte of BUF (and RES) and a command word. -/

namespace Sys2Proof

/-- One byte: an element of BUF, or the value of RES (10_state.md R24, R26). -/
abbrev Byte := BitVec 8

/-- One 64-bit command word, as the host presents it on CMD (30_encoding.md R60). -/
abbrev Word := BitVec 64

end Sys2Proof
end

