-- ==== Sys2Proof/Config.lean ====
section
/-! DEFINITION. What is fixed when an instance of the block is built: the eight parameters of 00_scope.md R6,
and the open latency bound of 70_reset_and_hazards.md R178. -/

namespace Sys2Proof

/-- The eight parameters of one built instance (00_scope.md R6). Two instances with different parameters are
different hardware (10_state.md R30). -/
structure Config where
  /-- `BUF_SIZE`: how many bytes BUF has. -/
  bufSize : Nat
  /-- `FMT_UNSIGNED`: the object format of an unsigned value. -/
  fmtUnsigned : BitVec 3
  /-- `FMT_SIGNED`: the object format of a signed value. -/
  fmtSigned : BitVec 3
  /-- `ID_PACKET_ID`. -/
  idPacketId : Byte
  /-- `ID_BATTERY`. -/
  idBattery : Byte
  /-- `ID_TEMPERATURE`. -/
  idTemperature : Byte
  /-- `ID_HUMIDITY`. -/
  idHumidity : Byte
  /-- `ID_PRESSURE`. -/
  idPressure : Byte
  deriving DecidableEq, Repr

/-- The constraints 00_scope.md R6 puts on the parameters; it puts none on the five identifiers. DESIGN CHOICE,
safe: a predicate, not a type (log entry 17). -/
abbrev Config.Valid (P : Config) : Prop :=
  1 ≤ P.bufSize ∧ P.bufSize ≤ 4095 ∧ P.fmtUnsigned ≠ P.fmtSigned

/-- The Default column of 00_scope.md R6. PRESUMED: the spec marks the seven constants as general knowledge
(93_implementation_defined.md G1). Unsafe for a claim about these very values; log entry 2. -/
def Config.default : Config where
  bufSize := 256
  fmtUnsigned := 0
  fmtSigned := 1
  idPacketId := 0x00
  idBattery := 0x01
  idTemperature := 0x02
  idHumidity := 0x03
  idPressure := 0x04

/-- `T_CMD_MAX`, the open latency bound of 70_reset_and_hazards.md R178: no rule reads it, and neither does the
model. DEDUCED, safe: log entry 8. -/
opaque Config.tCmdMax : Nat

end Sys2Proof
end

