-- ==== Sys2Proof/Syntax.lean ====
section
/-! DEFINITION. The nine commands of 30_encoding.md R63, one constructor per row of spec/opcode_table.json. -/

namespace Sys2Proof

/-- A command. `off` and `cap` are OFF and CAP read as unsigned integers (30_encoding.md R61, 00_scope.md R8);
`val` is VAL as it stands; WR_HDR's VAL is split into SGN, DLEN and TID (R66), its reserved bits being zero in
every word that decodes (R64). The arguments stand in the order of an assembler line (R71). DESIGN CHOICE, safe:
the integer operands are natural numbers, bounded by `wellFormed` (log entry 10). -/
inductive Instr where
  /-- WR_HDR: write one object header (40_header_writer.md R81). -/
  | wrHdr (off cap : Nat) (sgn : Bool) (dlen : Nat) (tid : Byte)
  /-- WR_LE1: write one byte (41_scalar_writer.md R91). -/
  | wrLe1 (off cap : Nat) (val : BitVec 32)
  /-- WR_LE2: write two bytes, low byte first (41_scalar_writer.md R92). -/
  | wrLe2 (off cap : Nat) (val : BitVec 32)
  /-- WR_LE3: write three bytes, low byte first (41_scalar_writer.md R93). -/
  | wrLe3 (off cap : Nat) (val : BitVec 32)
  /-- ENC_PACKET_ID: write the packet-id field (43_field_encoders.md R122). -/
  | encPacketId (off cap : Nat) (val : BitVec 32)
  /-- ENC_TEMPERATURE: write the temperature field (43_field_encoders.md R123). -/
  | encTemperature (off cap : Nat) (val : BitVec 32)
  /-- ENC_HUMIDITY: write the humidity field (43_field_encoders.md R124). -/
  | encHumidity (off cap : Nat) (val : BitVec 32)
  /-- ENC_BATTERY: write the battery field (43_field_encoders.md R125). -/
  | encBattery (off cap : Nat) (val : BitVec 32)
  /-- ENC_PRESSURE: write the pressure field (43_field_encoders.md R126). -/
  | encPressure (off cap : Nat) (val : BitVec 32)
  deriving DecidableEq, Repr

/-- The OFF operand of a command. -/
def Instr.off : Instr → Nat
  | .wrHdr o _ _ _ _ => o
  | .wrLe1 o _ _ => o
  | .wrLe2 o _ _ => o
  | .wrLe3 o _ _ => o
  | .encPacketId o _ _ => o
  | .encTemperature o _ _ => o
  | .encHumidity o _ _ => o
  | .encBattery o _ _ => o
  | .encPressure o _ _ => o

/-- The CAP operand of a command. -/
def Instr.cap : Instr → Nat
  | .wrHdr _ c _ _ _ => c
  | .wrLe1 _ c _ => c
  | .wrLe2 _ c _ => c
  | .wrLe3 _ c _ => c
  | .encPacketId _ c _ => c
  | .encTemperature _ c _ => c
  | .encHumidity _ c _ => c
  | .encBattery _ c _ => c
  | .encPressure _ c _ => c

end Sys2Proof
end

