-- ==== Sys2Proof/WellFormed.lean ====
section
/-! DEFINITION. Which commands a command word can carry: every integer operand fits its field. -/

namespace Sys2Proof

/-- OFF and CAP fit their 12-bit fields (30_encoding.md R61) and WR_HDR's DLEN its 8-bit field (R66). A DLEN
outside 1 to 3 or a CAP above BUF_SIZE is well formed: such a word decodes, and the command answers ERR_CMD when
it executes (R64, R69). -/
def Instr.wellFormed : Instr → Bool
  | .wrHdr off cap _ dlen _ => decide (off < 4096) && decide (cap < 4096) && decide (dlen < 256)
  | .wrLe1 off cap _ => decide (off < 4096) && decide (cap < 4096)
  | .wrLe2 off cap _ => decide (off < 4096) && decide (cap < 4096)
  | .wrLe3 off cap _ => decide (off < 4096) && decide (cap < 4096)
  | .encPacketId off cap _ => decide (off < 4096) && decide (cap < 4096)
  | .encTemperature off cap _ => decide (off < 4096) && decide (cap < 4096)
  | .encHumidity off cap _ => decide (off < 4096) && decide (cap < 4096)
  | .encBattery off cap _ => decide (off < 4096) && decide (cap < 4096)
  | .encPressure off cap _ => decide (off < 4096) && decide (cap < 4096)

end Sys2Proof
end

