-- ==== Sys2Proof/Decode.lean ====
section
/-! DEFINITION. Decoding a 64-bit command word and encoding a command, from 30_encoding.md R61 to R69 and
spec/opcode_table.json. -/

namespace Sys2Proof

/-- Why a word is no command (30_encoding.md R64). -/
inductive Illegal where
  /-- OP is none of the nine (R68). -/
  | opcode (op : BitVec 8)
  /-- A WR_HDR word with a bit of VAL[31:17] set (R69). -/
  | reservedBits
  deriving DecidableEq, Repr

/-- The one reading every word has (30_encoding.md R64). -/
inductive Decoded where
  | illegal (why : Illegal)
  | command (i : Instr)
  deriving DecidableEq, Repr

/-- `OP = c[63:56]` (30_encoding.md R61). -/
def opField (c : Word) : BitVec 8 := c.extractLsb' 56 8

/-- `OFF = c[55:44]`, an unsigned integer (30_encoding.md R61). -/
def offField (c : Word) : Nat := (c.extractLsb' 44 12).toNat

/-- `CAP = c[43:32]`, an unsigned integer (30_encoding.md R61). -/
def capField (c : Word) : Nat := (c.extractLsb' 32 12).toNat

/-- `VAL = c[31:0]` (30_encoding.md R61). -/
def valField (c : Word) : BitVec 32 := c.extractLsb' 0 32

/-- `VAL[31:17]`, the reserved bits of form HDR (30_encoding.md R62, R66). -/
def rsvdField (c : Word) : BitVec 15 := c.extractLsb' 17 15

/-- `SGN = VAL[16]` (30_encoding.md R66). -/
def sgnField (c : Word) : Bool := c.getLsbD 16

/-- `DLEN = VAL[15:8]`, a byte count (30_encoding.md R66). -/
def dlenField (c : Word) : Nat := (c.extractLsb' 8 8).toNat

/-- `TID = VAL[7:0]` (30_encoding.md R66). -/
def tidField (c : Word) : Byte := c.extractLsb' 0 8

/-- `Decode` of 30_encoding.md R64: total, and an illegal word is named. -/
def decode (c : Word) : Decoded :=
  match (opField c).toNat with
  | 0x10 =>
    if rsvdField c = 0 then
      .command (.wrHdr (offField c) (capField c) (sgnField c) (dlenField c) (tidField c))
    else .illegal .reservedBits
  | 0x11 => .command (.wrLe1 (offField c) (capField c) (valField c))
  | 0x12 => .command (.wrLe2 (offField c) (capField c) (valField c))
  | 0x13 => .command (.wrLe3 (offField c) (capField c) (valField c))
  | 0x20 => .command (.encPacketId (offField c) (capField c) (valField c))
  | 0x21 => .command (.encTemperature (offField c) (capField c) (valField c))
  | 0x22 => .command (.encHumidity (offField c) (capField c) (valField c))
  | 0x23 => .command (.encBattery (offField c) (capField c) (valField c))
  | 0x24 => .command (.encPressure (offField c) (capField c) (valField c))
  | _ => .illegal (.opcode (opField c))

/-- `c = (OP << 56) | (OFF << 44) | (CAP << 32) | VAL` (30_encoding.md R61), the four fields side by side. -/
def packWord (op : BitVec 8) (off cap : Nat) (val : BitVec 32) : Word :=
  op ++ (BitVec.ofNat 12 off ++ (BitVec.ofNat 12 cap ++ val))

/-- VAL of a WR_HDR: reserved bits zero, SGN, DLEN, TID (30_encoding.md R66). -/
def hdrVal (sgn : Bool) (dlen : Nat) (tid : Byte) : BitVec 32 :=
  (0 : BitVec 15) ++ (BitVec.ofBool sgn ++ (BitVec.ofNat 8 dlen ++ tid))

/-- The OP of a command (30_encoding.md R63). -/
def Instr.op : Instr → BitVec 8
  | .wrHdr _ _ _ _ _ => 0x10
  | .wrLe1 _ _ _ => 0x11
  | .wrLe2 _ _ _ => 0x12
  | .wrLe3 _ _ _ => 0x13
  | .encPacketId _ _ _ => 0x20
  | .encTemperature _ _ _ => 0x21
  | .encHumidity _ _ _ => 0x22
  | .encBattery _ _ _ => 0x23
  | .encPressure _ _ _ => 0x24

/-- The VAL of a command, in the operand form of its OP (30_encoding.md R62). -/
def Instr.val : Instr → BitVec 32
  | .wrHdr _ _ sgn dlen tid => hdrVal sgn dlen tid
  | .wrLe1 _ _ v => v
  | .wrLe2 _ _ v => v
  | .wrLe3 _ _ v => v
  | .encPacketId _ _ v => v
  | .encTemperature _ _ v => v
  | .encHumidity _ _ v => v
  | .encBattery _ _ v => v
  | .encPressure _ _ v => v

/-- The word of a command (30_encoding.md R61, R71). -/
def encode (i : Instr) : Word := packWord i.op i.off i.cap i.val

/-- One row of spec/opcode_table.json: a word belongs to it when its masked bits are those of `pattern`. -/
structure OpcodeRow where
  mnemonic : String
  pattern : Word
  mask : Word
  deriving DecidableEq, Repr

/-- The nine rows of spec/opcode_table.json, `match` and `mask` as they stand there. -/
def opcodeTable : List OpcodeRow :=
  [⟨"WR_HDR", 0x1000000000000000, 0xFF000000FFFE0000⟩,
   ⟨"WR_LE1", 0x1100000000000000, 0xFF00000000000000⟩,
   ⟨"WR_LE2", 0x1200000000000000, 0xFF00000000000000⟩,
   ⟨"WR_LE3", 0x1300000000000000, 0xFF00000000000000⟩,
   ⟨"ENC_PACKET_ID", 0x2000000000000000, 0xFF00000000000000⟩,
   ⟨"ENC_TEMPERATURE", 0x2100000000000000, 0xFF00000000000000⟩,
   ⟨"ENC_HUMIDITY", 0x2200000000000000, 0xFF00000000000000⟩,
   ⟨"ENC_BATTERY", 0x2300000000000000, 0xFF00000000000000⟩,
   ⟨"ENC_PRESSURE", 0x2400000000000000, 0xFF00000000000000⟩]

/-- Does a word belong to a row? -/
def OpcodeRow.admits (r : OpcodeRow) (c : Word) : Bool := c &&& r.mask == r.pattern

/-- The row of a command. -/
def Instr.mnemonic : Instr → String
  | .wrHdr _ _ _ _ _ => "WR_HDR"
  | .wrLe1 _ _ _ => "WR_LE1"
  | .wrLe2 _ _ _ => "WR_LE2"
  | .wrLe3 _ _ _ => "WR_LE3"
  | .encPacketId _ _ _ => "ENC_PACKET_ID"
  | .encTemperature _ _ _ => "ENC_TEMPERATURE"
  | .encHumidity _ _ _ => "ENC_HUMIDITY"
  | .encBattery _ _ _ => "ENC_BATTERY"
  | .encPressure _ _ _ => "ENC_PRESSURE"

/-- The command word whose low `nbits` bits are those of `w` and whose other bits are zero. DEDUCED, safe:
log entry 14. -/
def tableWord (nbits w : Nat) : Word := BitVec.ofNat 64 (w % 2 ^ nbits)

/-- What the decoder reads from a word given as a number, bit 0 its least significant bit. -/
def decodeTableWord (nbits w : Nat) : Option Instr :=
  match decode (tableWord nbits w) with
  | .command i => some i
  | .illegal _ => none

end Sys2Proof
end

