-- ==== Sys2Proof/Machine/State.lean ====
section
/-! DEFINITION. The state of the block and of its host, plain data; the reasons a step can stop; the state after
reset (10_state.md R20 to R31). -/

namespace Sys2Proof.Machine

/-- BUF (10_state.md R24): the bytes written since reset, as (address, byte) pairs. An address that is not
listed holds no value (R29, 20_memory.md R55). DEDUCED, safe: log entry 3. -/
abbrev Memory := List Host.Cell

/-- Every address listed is above `lo`. -/
def Memory.above (lo : Nat) (m : Memory) : Bool := m.all fun c => decide (lo < c.1)

/-- The canonical form of BUF: addresses strictly rising, so that equal contents are equal lists. -/
def Memory.wf : Memory → Bool
  | [] => true
  | c :: m => Memory.above c.1 m && Memory.wf m

/-- The three failures a command can end in (60_exceptions.md R140, R141). They are no faults of the machine:
a failing command sets RES and the machine goes on. -/
inductive Failure where
  /-- ERR_CAP: capacity exhaustion. -/
  | cap
  /-- ERR_RANGE: value out of representable range. -/
  | range
  /-- ERR_CMD: the word is no command, or an operand is illegal. -/
  | cmd
  deriving DecidableEq, Repr

/-- What the host may do, and the reset event from outside (10_state.md R21, 70_reset_and_hazards.md R170). It
has no move during a command (70_reset_and_hazards.md R173, R177). DEDUCED, unsafe: log entries 6 and 12. -/
inductive HostMove where
  /-- Write one word to CMD: issue a command (10_state.md R25). -/
  | issue (c : Word)
  /-- Read RES (10_state.md R26). -/
  | readRes
  /-- Read one byte of BUF (10_state.md R21, R24). -/
  | readBuf (a : Nat)
  /-- Reset; `some c` when the command `c` was under way and is abandoned (70_reset_and_hazards.md R170). -/
  | reset (cut : Option Word)
  deriving DecidableEq, Repr

/-- What the host got from one read (70_reset_and_hazards.md R179). -/
inductive Reading where
  | res (v : Byte)
  | buf (a : Nat) (v : Byte)
  deriving DecidableEq, Repr

/-- The state. `buf` and `res` are the block's (10_state.md R24, R26). `cfg` holds the parameters of the
instance, which no step changes (R30). DESIGN CHOICE, safe: log entry 1. `moves` and `seen` are the host's: what
it still does, and what it has read, oldest first. DESIGN CHOICE, safe: log entry 4. -/
structure State where
  cfg : Config
  buf : Memory
  res : Byte
  moves : List HostMove
  seen : List Reading
  deriving DecidableEq, Repr

/-- Why a step stops with a fault. No command raises one: both are raised only by a host's `readBuf`. -/
inductive Fault where
  /-- Raised by the host's read of a byte of BUF that holds no value (10_state.md R29,
  93_implementation_defined.md U7). Safe: the model stops where hardware would give some byte. -/
  | unwrittenByte (a : Nat)
  /-- Raised by the host's read of an address at or above BUF_SIZE, which BUF does not have (20_memory.md R40).
  Safe: no hardware behaviour is given for it. DESIGN CHOICE: log entry 16. -/
  | noSuchByte (a : Nat)
  deriving DecidableEq, Repr

/-- Why a step refuses an instruction. -/
inductive Refusal where
  /-- Raised only by an arm of `exec` whose instruction has no meaning yet; no arm does. Safe. -/
  | notModelled (mnemonic : String)
  deriving DecidableEq, Repr

/-- An instance right after reset (10_state.md R29): RES is 0x00 and no byte of BUF holds a value. The host has
done nothing yet and has nothing to do. DESIGN CHOICE, unsafe: log entry 15. -/
def State.resetOf (P : Config) : State where
  cfg := P
  buf := []
  res := 0x00
  moves := []
  seen := []

/-- The instance with the default parameters of 00_scope.md R6, right after reset. PRESUMED, unsafe: log
entry 2. -/
def State.reset : State := State.resetOf Config.default

end Sys2Proof.Machine
end

