-- ==== Sys2Proof/Machine/Flags.lean ====
section
/-! DEFINITION. The values of RES. The block has no flags (10_state.md R27); RES is its only status: a byte
count, or a failure code with bit 7 set (10_state.md R26, 60_exceptions.md R141). -/

namespace Sys2Proof.Machine

/-- `code(ERR_X)` of 60_exceptions.md R141. -/
def Failure.code : Failure → Byte
  | .cap => 0xFF
  | .range => 0xFE
  | .cmd => 0xFD

/-- RES after a command that wrote `n` bytes (60_exceptions.md R141). -/
def countCode (n : Nat) : Byte := BitVec.ofNat 8 n

/-- `FAIL`, bit 7 of RES (10_state.md R26). -/
def resFailed (r : Byte) : Bool := r.getLsbD 7

/-- `sext_8(RES)` (00_scope.md R9, 10_state.md R26). -/
def resSigned (r : Byte) : Int :=
  if r.toNat < 128 then (r.toNat : Int) else (r.toNat : Int) - 256

/-- The host's rule for the next OFF (70_reset_and_hazards.md R174, R175): advance by the count, stay after a
failure. The block itself keeps no offset. DEDUCED, safe: log entry 18. -/
def nextOffset (off : Nat) (r : Byte) : Nat :=
  if resFailed r then off else off + r.toNat

end Sys2Proof.Machine
end

