-- ==== Sys2Proof/Machine/Ops.lean ====
section
/-! DEFINITION. The named operations over BUF and RES: reading and writing bytes, the little-endian writer,
`MemWrite` and `MemRead`, and `raise` (00_scope.md R9, 20_memory.md R44 to R48, 41_scalar_writer.md R90). -/

namespace Sys2Proof.Machine

/-- The byte at an address, none when it holds no value (20_memory.md R55). -/
def Memory.read : Memory → Nat → Option Byte
  | [], _ => none
  | (x, v) :: m, a => if x = a then some v else Memory.read m a

/-- `BUF[a] <- v`: one assertion of the write port (20_memory.md R48), keeping the canonical form. -/
def Memory.writeByte (a : Nat) (v : Byte) : Memory → Memory
  | [] => [(a, v)]
  | (x, u) :: m =>
    if a < x then (a, v) :: (x, u) :: m
    else if a = x then (a, v) :: m
    else (x, u) :: Memory.writeByte a v m

/-- The write-port transactions that put a list of bytes at ascending addresses (10_state.md R31,
20_memory.md R48). DEDUCED, safe: log entry 13. -/
def portWrites (a : Nat) : List Byte → List Host.Cell
  | [] => []
  | v :: vs => (a, v) :: portWrites (a + 1) vs

/-- Write-port transactions performed in order. -/
def Memory.applyWrites : List Host.Cell → Memory → Memory
  | [], m => m
  | (a, v) :: ws, m => Memory.applyWrites ws (Memory.writeByte a v m)

/-- `v[8*i+7 : 8*i]` (00_scope.md R8). -/
def byteOf (v i : Nat) : Byte := BitVec.ofNat 8 (v >>> (8 * i))

/-- `LeBytes(v, w)`: the `w` low bytes of `v`, least significant first (41_scalar_writer.md R90). -/
def leBytes (v w : Nat) : List Byte := (List.range w).map (byteOf v)

/-- `MemWrite(addr, n, v)` (00_scope.md R9, 20_memory.md R44). -/
def State.memWrite (addr n v : Nat) (s : State) : State :=
  { s with buf := s.buf.applyWrites (portWrites addr (leBytes v n)) }

/-- `MemRead(addr, n)` (00_scope.md R9), none when one of the bytes holds no value. No command performs it
(20_memory.md R43). -/
def Memory.memRead (m : Memory) (addr : Nat) : Nat → Option Nat
  | 0 => some 0
  | n + 1 =>
    match Memory.read m addr, Memory.memRead m (addr + 1) n with
    | some lo, some hi => some (lo.toNat + 256 * hi)
    | _, _ => none

/-- `RES <- n`, a byte count (00_scope.md R9). -/
def State.setRes (n : Nat) (s : State) : State := { s with res := countCode n }

/-- `raise ERR_X`: abandon the command, write no byte, set RES to the failure's code (00_scope.md R9,
60_exceptions.md R144). -/
def State.raise (e : Failure) (s : State) : State := { s with res := e.code }

/-- The state after the reset event (10_state.md R29, 70_reset_and_hazards.md R170): RES 0x00, no byte of BUF
with a value, the parameters as built; what the host has read and means to do is the host's. DEDUCED,
safe: log entry 9. -/
def State.afterReset (s : State) : State := { s with buf := [], res := 0x00 }

end Sys2Proof.Machine
end

