-- ==== Sys2Proof/Machine/Operands.lean ====
section
/-! DEFINITION. The operand forms of VAL (30_encoding.md R62, R65 to R67), the window check (20_memory.md R46),
the fixed-point conversion (42_fixed_point_conversion.md) and the object header (40_header_writer.md R80). -/

namespace Sys2Proof.Machine

/-- `CAP > P.BUF_SIZE`: the window claims bytes BUF does not have, which is ERR_CMD (20_memory.md R46). -/
def capIllegal (cap : Nat) (s : State) : Bool := decide (cap > s.cfg.bufSize)

/-- `OFF + need > CAP`, without wrap-around, which is ERR_CAP (20_memory.md R46). -/
def windowShort (off need cap : Nat) : Bool := decide (off + need > cap)

/-- Form RAW: `VAL[8*w-1 : 0]`, the bits above ignored (30_encoding.md R67). -/
def rawOperand (w : Nat) (val : BitVec 32) : Nat := val.toNat % 2 ^ (8 * w)

/-- `s = VAL[31]` of form F32 (42_fixed_point_conversion.md R100). -/
def f32Sign (val : BitVec 32) : Bool := val.getLsbD 31

/-- `e = VAL[30:23]`, the biased exponent (42_fixed_point_conversion.md R100). -/
def f32Exp (val : BitVec 32) : Nat := (val.extractLsb' 23 8).toNat

/-- `f = VAL[22:0]`, the fraction (42_fixed_point_conversion.md R100). -/
def f32Frac (val : BitVec 32) : Nat := (val.extractLsb' 0 23).toNat

/-- `Decompose(VAL)`: sign, significand `M` and exponent `E` of a finite pattern, none for an infinity or a NaN
(42_fixed_point_conversion.md R101). -/
def decompose (val : BitVec 32) : Option (Bool × Nat × Int) :=
  if f32Exp val = 255 then none
  else if f32Exp val = 0 then some (f32Sign val, f32Frac val, -149)
  else some (f32Sign val, 2 ^ 23 + f32Frac val, (f32Exp val : Int) - 150)

/-- `q << E` for `E >= 0`, else `q >> (-E)` (42_fixed_point_conversion.md R103). -/
def shiftExact (q : Nat) (E : Int) : Nat :=
  if 0 ≤ E then q <<< E.toNat else q >>> (-E).toNat

/-- `ScaleTrunc(VAL, S)`: the reading times `S`, exact, truncated toward zero; none for NotFinite
(42_fixed_point_conversion.md R103, R104). -/
def scaleTrunc (val : BitVec 32) (S : Nat) : Option Int :=
  match decompose val with
  | none => none
  | some (s, M, E) =>
    let mag := shiftExact (M * S) E
    some (if s then -(mag : Int) else (mag : Int))

/-- `n` when it lies in `[lo, hi]`, none where the rule raises ERR_RANGE (42_fixed_point_conversion.md R105). -/
def inRange (n lo hi : Int) : Option Int := if n < lo ∨ n > hi then none else some n

/-- `Convert(VAL, S, lo, hi)`: none where it raises ERR_RANGE (42_fixed_point_conversion.md R105). -/
def convert (val : BitVec 32) (S : Nat) (lo hi : Int) : Option Int :=
  match scaleTrunc val S with
  | none => none
  | some n => inRange n lo hi

/-- Form U32, the packet id: `zext_32(VAL)`, unscaled, 0 to 255 (42_fixed_point_conversion.md R111). -/
def convertU32 (val : BitVec 32) : Option Int := inRange (val.toNat : Int) 0 255

/-- `tc_N(n) = n mod 2^N` (00_scope.md R9, 42_fixed_point_conversion.md R107). -/
def tc (N : Nat) (n : Int) : Nat := (n % (2 ^ N : Int)).toNat

/-- Header byte 0: `(fmt << 5) | plen` (40_header_writer.md R80). -/
def hdrByte0 (fmt : BitVec 3) (plen : BitVec 5) : Byte :=
  (fmt.setWidth 8 <<< 5) ||| plen.setWidth 8

/-- The object format that SGN selects (30_encoding.md R66). -/
def formatOf (P : Config) (sgn : Bool) : BitVec 3 := if sgn then P.fmtSigned else P.fmtUnsigned

/-- Write the two bytes of `Hdr(fmt, plen, tid)` at `a` and `a + 1` (40_header_writer.md R80, R81). -/
def State.writeHdr (a : Nat) (fmt : BitVec 3) (plen : Nat) (tid : Byte) (s : State) : State :=
  (s.memWrite a 1 (hdrByte0 fmt (BitVec.ofNat 5 plen)).toNat).memWrite (a + 1) 1 tid.toNat

end Sys2Proof.Machine
end

