-- ==== Sys2Proof/Machine/Field.lean ====
section
/-! DEFINITION. The meanings of the five field encoders (43_field_encoders.md R120 to R126). -/

namespace Sys2Proof.Machine

/-- `EncodeField` after its conversion step (43_field_encoders.md R121): `conv` is the scaled value in the
field's range, or none where the conversion raises ERR_RANGE. One check covers the whole field before the header
is written (90_conflicts.md C1). -/
def encodeField (fmt : BitVec 3) (tid : Byte) (w off cap : Nat) (conv : Option Int) (s : State) :
    Host.Outcome State Fault Refusal :=
  if capIllegal cap s then .next (s.raise .cmd)
  else match conv with
    | none => .next (s.raise .range)
    | some n =>
      if windowShort off (2 + w) cap then .next (s.raise .cap)
      else .next (((s.writeHdr off fmt (w + 1) tid).memWrite (off + 2) w (tc (8 * w) n)).setRes (2 + w))

/-- `ENC_PACKET_ID off, cap, id` (43_field_encoders.md R122). -/
def execEncPacketId (off cap : Nat) (val : BitVec 32) (s : State) : Host.Outcome State Fault Refusal :=
  encodeField s.cfg.fmtUnsigned s.cfg.idPacketId 1 off cap (convertU32 val) s

/-- `ENC_TEMPERATURE off, cap, f32:t` (43_field_encoders.md R123). -/
def execEncTemperature (off cap : Nat) (val : BitVec 32) (s : State) : Host.Outcome State Fault Refusal :=
  encodeField s.cfg.fmtSigned s.cfg.idTemperature 2 off cap (convert val 100 (-32768) 32767) s

/-- `ENC_HUMIDITY off, cap, f32:h` (43_field_encoders.md R124). -/
def execEncHumidity (off cap : Nat) (val : BitVec 32) (s : State) : Host.Outcome State Fault Refusal :=
  encodeField s.cfg.fmtUnsigned s.cfg.idHumidity 2 off cap (convert val 100 0 65535) s

/-- `ENC_BATTERY off, cap, f32:b` (43_field_encoders.md R125). -/
def execEncBattery (off cap : Nat) (val : BitVec 32) (s : State) : Host.Outcome State Fault Refusal :=
  encodeField s.cfg.fmtUnsigned s.cfg.idBattery 2 off cap (convert val 1 0 65535) s

/-- `ENC_PRESSURE off, cap, f32:p` (43_field_encoders.md R126). -/
def execEncPressure (off cap : Nat) (val : BitVec 32) (s : State) : Host.Outcome State Fault Refusal :=
  encodeField s.cfg.fmtUnsigned s.cfg.idPressure 3 off cap (convert val 100 0 16777215) s

end Sys2Proof.Machine
end

