-- ==== Sys2Proof/Machine/Header.lean ====
section
/-! DEFINITION. The meaning of WR_HDR (40_header_writer.md R81). -/

namespace Sys2Proof.Machine

/-- `WR_HDR off, cap, sgn, dlen, tid` (40_header_writer.md R81). Its first check, the reserved bits of VAL, is
made by `decode`, and a word with one set ends in ERR_CMD in `runCommand` (90_conflicts.md C9). DEDUCED, safe: log
entry 11. -/
def execWrHdr (off cap : Nat) (sgn : Bool) (dlen : Nat) (tid : Byte) (s : State) :
    Host.Outcome State Fault Refusal :=
  if capIllegal cap s then .next (s.raise .cmd)
  else if dlen < 1 ∨ dlen > 3 then .next (s.raise .cmd)
  else if windowShort off 2 cap then .next (s.raise .cap)
  else .next ((s.writeHdr off (formatOf s.cfg sgn) (dlen + 1) tid).setRes 2)

end Sys2Proof.Machine
end

