-- ==== Sys2Proof/Machine/Scalar.lean ====
section
/-! DEFINITION. The meanings of WR_LE1, WR_LE2 and WR_LE3 (41_scalar_writer.md R90 to R93). -/

namespace Sys2Proof.Machine

/-- What the three scalar writers share: the window check for `w` bytes, then `MemWrite(OFF, w, VAL[8*w-1:0])`
and `RES <- w` (41_scalar_writer.md R90 to R94). -/
def writeScalar (w off cap : Nat) (val : BitVec 32) (s : State) : Host.Outcome State Fault Refusal :=
  if capIllegal cap s then .next (s.raise .cmd)
  else if windowShort off w cap then .next (s.raise .cap)
  else .next ((s.memWrite off w (rawOperand w val)).setRes w)

/-- `WR_LE1 off, cap, v` (41_scalar_writer.md R91). -/
def execWrLe1 (off cap : Nat) (val : BitVec 32) (s : State) : Host.Outcome State Fault Refusal :=
  writeScalar 1 off cap val s

/-- `WR_LE2 off, cap, v` (41_scalar_writer.md R92). -/
def execWrLe2 (off cap : Nat) (val : BitVec 32) (s : State) : Host.Outcome State Fault Refusal :=
  writeScalar 2 off cap val s

/-- `WR_LE3 off, cap, v` (41_scalar_writer.md R93). -/
def execWrLe3 (off cap : Nat) (val : BitVec 32) (s : State) : Host.Outcome State Fault Refusal :=
  writeScalar 3 off cap val s

end Sys2Proof.Machine
end

