-- ==== Sys2Proof/Machine/Dispatch.lean ====
section
/-! DEFINITION. One arm per command: each calls the meaning of its instruction (30_encoding.md R63). -/

namespace Sys2Proof.Machine

def exec (i : Instr) (s : State) : Host.Outcome State Fault Refusal :=
  match i with
  | .wrHdr off cap sgn dlen tid => Sys2Proof.Machine.execWrHdr off cap sgn dlen tid s
  | .wrLe1 off cap val => Sys2Proof.Machine.execWrLe1 off cap val s
  | .wrLe2 off cap val => Sys2Proof.Machine.execWrLe2 off cap val s
  | .wrLe3 off cap val => Sys2Proof.Machine.execWrLe3 off cap val s
  | .encPacketId off cap val => Sys2Proof.Machine.execEncPacketId off cap val s
  | .encTemperature off cap val => Sys2Proof.Machine.execEncTemperature off cap val s
  | .encHumidity off cap val => Sys2Proof.Machine.execEncHumidity off cap val s
  | .encBattery off cap val => Sys2Proof.Machine.execEncBattery off cap val s
  | .encPressure off cap val => Sys2Proof.Machine.execEncPressure off cap val s

end Sys2Proof.Machine
end

