-- ==== Sys2Proof/Machine/Ports.lean ====
section
/-! DEFINITION. The block's ports as the host uses them: issuing a word on CMD, reading RES, reading a byte of
BUF, reset (10_state.md R21, R25, R26, R31; 70_reset_and_hazards.md R170). -/

namespace Sys2Proof.Machine

/-- A word written to CMD: the command it decodes to is executed, and an illegal word writes no byte and sets RES
to ERR_CMD (30_encoding.md R64, R68). DEDUCED, safe: log entry 11. -/
def runCommand (c : Word) (s : State) : Host.Outcome State Fault Refusal :=
  match decode c with
  | .command i => exec i s
  | .illegal _ => .next (s.raise .cmd)

/-- The host's read of RES (10_state.md R21, R26): it gets the byte, and the block does not change. -/
def hostReadRes (s : State) : Host.Outcome State Fault Refusal :=
  .next { s with seen := s.seen ++ [.res s.res] }

/-- The host's read of one byte of BUF (10_state.md R21): the byte, or a fault of the model where there is no
such byte or it holds no value (R29, 93_implementation_defined.md U7). DEDUCED, safe: log entries 3 and 16. -/
def hostReadBuf (a : Nat) (s : State) : Host.Outcome State Fault Refusal :=
  if a < s.cfg.bufSize then
    match s.buf.read a with
    | some v => .next { s with seen := s.seen ++ [.buf a v] }
    | none => .fault (.unwrittenByte a)
  else .fault (.noSuchByte a)

/-- One move of the host, or the reset event. -/
def runMove (m : HostMove) (s : State) : Host.Outcome State Fault Refusal :=
  match m with
  | .issue c => runCommand c s
  | .readRes => hostReadRes s
  | .readBuf a => hostReadBuf a s
  | .reset _ => .next s.afterReset

end Sys2Proof.Machine
end

