-- ==== Sys2Proof/Machine/Step.lean ====
section
/-! DEFINITION. One step: the host's next move is taken from the list and performed, atomically
(20_memory.md R50, 10_state.md R20). DEDUCED, unsafe: log entry 6. -/

namespace Sys2Proof.Machine

/-- One step. With no move left the run has ended (70_reset_and_hazards.md R179) and the idle block does nothing.
DESIGN CHOICE, safe: log entry 5. -/
def step (s : State) : Host.Outcome State Fault Refusal :=
  match s.moves with
  | [] => .next s
  | m :: ms => runMove m { s with moves := ms }

/-- The host issues the word numbered `w` next, before any move it already meant to make. DEDUCED, safe: log
entry 14. -/
def State.withFetchWord (s : State) (nbits w : Nat) : State :=
  { s with moves := .issue (tableWord nbits w) :: s.moves }

end Sys2Proof.Machine
end

