-- ==== Sys2Proof/Safety.lean ====
section
/-! DEFINITION. The vocabulary of the claims: the invariant of a reachable state, the frame of a command, the
failure a command should report (60_exceptions.md R142, R143), the constants of the five fields
(42_fixed_point_conversion.md R106, 43_field_encoders.md R120) and the exact value of a reading (R100, R102). -/

namespace Sys2Proof.Machine

/-- The full set of values RES can take (10_state.md R26). -/
def legalRes : List Byte := [0x00, 0x01, 0x02, 0x03, 0x04, 0x05, 0xFF, 0xFE, 0xFD]

/-- What holds at reset and after every step: legal parameters (00_scope.md R6), BUF in canonical form and inside
`[0, BUF_SIZE)` (20_memory.md R40), RES a value it can take (10_state.md R26). -/
def State.Inv (s : State) : Prop :=
  s.cfg.Valid ∧ Memory.wf s.buf = true ∧ (∀ c ∈ s.buf, c.1 < s.cfg.bufSize) ∧ s.res ∈ legalRes

/-- The frame of a command that stores `k` bytes at `off`: the parameters, the host's moves and readings, and
every byte of BUF outside `[off, off + k)` are as before. RES is the command's to write. -/
def UnchangedOutside (off k : Nat) (s t : State) : Prop :=
  t.cfg = s.cfg ∧ t.moves = s.moves ∧ t.seen = s.seen ∧
    ∀ a, a < off ∨ off + k ≤ a → t.buf.read a = s.buf.read a

/-- The bytes at `off`, `off + 1`, … are those of the list, in order. -/
def HoldsBytes (off : Nat) (bytes : List Byte) (t : State) : Prop :=
  ∀ (k : Nat) (h : k < bytes.length), t.buf.read (off + k) = some bytes[k]

/-- `(fmt << 5) | plen` (40_header_writer.md R80), on integers. -/
def headerByte (fmt : BitVec 3) (plen : Nat) : Byte := BitVec.ofNat 8 (fmt.toNat <<< 5 ||| plen)

/-- `v[8*i+7 : 8*i]` of a two's-complement pattern of `8*w` bits (42_fixed_point_conversion.md R107). -/
def valueByte (w : Nat) (n : Int) (i : Nat) : Byte := (BitVec.ofInt (8 * w) n).extractLsb' (8 * i) 8

/-- The five fields (43_field_encoders.md R120). -/
inductive Field where
  | packetId
  | temperature
  | humidity
  | battery
  | pressure
  deriving DecidableEq, Repr

/-- The command that encodes a field (43_field_encoders.md R122 to R126). -/
def Field.command : Field → Nat → Nat → BitVec 32 → Instr
  | .packetId => .encPacketId
  | .temperature => .encTemperature
  | .humidity => .encHumidity
  | .battery => .encBattery
  | .pressure => .encPressure

/-- Is the field's value signed? (43_field_encoders.md R120) -/
def Field.signed : Field → Bool
  | .temperature => true
  | .packetId => false
  | .humidity => false
  | .battery => false
  | .pressure => false

/-- The data-type byte of a field (43_field_encoders.md R120). -/
def Field.tid (P : Config) : Field → Byte
  | .packetId => P.idPacketId
  | .temperature => P.idTemperature
  | .humidity => P.idHumidity
  | .battery => P.idBattery
  | .pressure => P.idPressure

/-- The value width of a field (43_field_encoders.md R120). -/
def Field.width : Field → Nat
  | .packetId => 1
  | .temperature => 2
  | .humidity => 2
  | .battery => 2
  | .pressure => 3

/-- The scale factor of a field (42_fixed_point_conversion.md R106). -/
def Field.scale : Field → Nat
  | .packetId => 1
  | .temperature => 100
  | .humidity => 100
  | .battery => 1
  | .pressure => 100

/-- The least value of a field (42_fixed_point_conversion.md R106). -/
def Field.lo : Field → Int
  | .temperature => -32768
  | .packetId => 0
  | .humidity => 0
  | .battery => 0
  | .pressure => 0

/-- The greatest value of a field (42_fixed_point_conversion.md R106). -/
def Field.hi : Field → Int
  | .packetId => 255
  | .temperature => 32767
  | .humidity => 65535
  | .battery => 65535
  | .pressure => 16777215

/-- The scaled value of an operand, none for NotFinite: the integer itself for the packet id, `ScaleTrunc` for
the others (42_fixed_point_conversion.md R103, R111). -/
def Field.scaled (f : Field) (val : BitVec 32) : Option Int :=
  match f with
  | .packetId => some (val.toNat : Int)
  | .temperature => scaleTrunc val 100
  | .humidity => scaleTrunc val 100
  | .battery => scaleTrunc val 1
  | .pressure => scaleTrunc val 100

/-- The operand has a scaled value in the field's range (42_fixed_point_conversion.md R105). -/
def Field.Accepts (f : Field) (val : BitVec 32) (n : Int) : Prop :=
  f.scaled val = some n ∧ f.lo ≤ n ∧ n ≤ f.hi

/-- The bytes of a field whose scaled value is `n` (43_field_encoders.md R120, 20_memory.md R45). -/
def Field.bytes (P : Config) (f : Field) (n : Int) : List Byte :=
  headerByte (formatOf P f.signed) (f.width + 1) :: f.tid P ::
    (List.range f.width).map (valueByte f.width n)

/-- The three scalar writers with the widths they write (41_scalar_writer.md R91 to R93). -/
def scalarWriters : List (Nat × (Nat → Nat → BitVec 32 → Instr)) :=
  [(1, .wrLe1), (2, .wrLe2), (3, .wrLe3)]

/-- The values of OP that are no command (30_encoding.md R68). -/
def IllegalOp (op : Nat) : Prop := op ≤ 0x0F ∨ (0x14 ≤ op ∧ op ≤ 0x1F) ∨ (0x25 ≤ op ∧ op ≤ 0xFF)

/-- How many bytes a command writes when it succeeds (20_memory.md R41). -/
def need : Instr → Nat
  | .wrHdr _ _ _ _ _ => 2
  | .wrLe1 _ _ _ => 1
  | .wrLe2 _ _ _ => 2
  | .wrLe3 _ _ _ => 3
  | .encPacketId _ _ _ => 3
  | .encTemperature _ _ _ => 4
  | .encHumidity _ _ _ => 4
  | .encBattery _ _ _ => 4
  | .encPressure _ _ _ => 5

/-- A command has a cause of ERR_CMD (60_exceptions.md R142): CAP above BUF_SIZE, or a WR_HDR with DLEN outside
1 to 3. The other causes, an illegal OP and reserved bits, are words that decode to no command. -/
def CmdCause (P : Config) (i : Instr) : Prop :=
  i.cap > P.bufSize ∨ ∃ off cap sgn dlen tid, i = .wrHdr off cap sgn dlen tid ∧ (dlen < 1 ∨ dlen > 3)

/-- A command has a cause of ERR_RANGE (60_exceptions.md R142): it encodes a field, and its operand is no finite
reading or its scaled value is outside the field's range. -/
def RangeCause (i : Instr) : Prop :=
  ∃ (f : Field) (off cap : Nat) (val : BitVec 32), i = f.command off cap val ∧ ¬ ∃ n, f.Accepts val n

/-- A command has the cause of ERR_CAP (60_exceptions.md R142). -/
def CapCause (i : Instr) : Prop := i.off + need i > i.cap

/-- The exact value of a reading by its class (42_fixed_point_conversion.md R100), none for an infinity or a
NaN. -/
def valueOf (val : BitVec 32) : Option ℚ :=
  if f32Exp val = 255 then none
  else if f32Exp val = 0 then
    some ((if f32Sign val then -1 else 1) * (f32Frac val : ℚ) * (2 : ℚ) ^ (-149 : ℤ))
  else
    some ((if f32Sign val then -1 else 1) * (2 ^ 23 + (f32Frac val : ℚ)) *
      (2 : ℚ) ^ ((f32Exp val : ℤ) - 150))

/-- `trunc(x)`: the integer with the sign of `x` whose magnitude is the floor of `|x|`
(42_fixed_point_conversion.md R102). -/
def truncQ (x : ℚ) : ℤ := if x < 0 then -⌊|x|⌋ else ⌊|x|⌋

end Sys2Proof.Machine
end

