-- ==== Sys2Proof/Certificates/Slice0/Obligations.lean ====
section
/-! DEFINITION. The statements for the provers, from the numbered rules of spec/. -/

open Sys2Proof Sys2Proof.Machine

-- Encoding

/-- 30_encoding.md R61 to R67: no bit of a well-formed command is lost between encoding and decoding. -/
def Obligations.DecodeEncodeRoundTrip : Prop :=
  ∀ i : Instr, i.wellFormed = true → decode (encode i) = .command i

/-- 30_encoding.md R61 to R67: every word that is a command is the encoding of that command, and the command is
well formed. -/
def Obligations.EncodeDecodeRoundTrip : Prop :=
  ∀ (c : Word) (i : Instr), decode c = .command i → i.wellFormed = true ∧ encode i = c

/-- 30_encoding.md R64, clause by clause: `Decode`, the table's rows, what an illegal word does, and the value tests
that are made when the command executes. -/
def Obligations.DecodeFollowsOpcodeMap : Prop :=
  ∀ c : Word,
    let nine : List (BitVec 8) := [0x10, 0x11, 0x12, 0x13, 0x20, 0x21, 0x22, 0x23, 0x24]
    (opField c ∉ nine → ∃ why, decode c = .illegal why) ∧
    (opField c = 0x10 → c.extractLsb' 17 15 ≠ 0 → ∃ why, decode c = .illegal why) ∧
    (opField c ∈ nine → (opField c = 0x10 → c.extractLsb' 17 15 = 0) →
      ∃ i, decode c = .command i ∧ i.op = c.extractLsb' 56 8 ∧ i.off = (c.extractLsb' 44 12).toNat ∧
        i.cap = (c.extractLsb' 32 12).toNat ∧ i.val = c.extractLsb' 0 32) ∧
    ((∃ i, decode c = .command i) ↔ ∃ r ∈ opcodeTable, r.admits c = true) ∧
    (∀ why s, decode c = .illegal why → runCommand c s = .next { s with res := 0xFD }) ∧
    ∀ i s, decode c = .command i → CmdCause s.cfg i → runCommand c s = .next { s with res := 0xFD }

/-- spec/opcode_table.json: no word belongs to two rows, and a word decodes to the command of its row. -/
def Obligations.OpcodeRowsDisjoint : Prop :=
  opcodeTable.Pairwise (fun r q => ∀ c, ¬ (r.admits c = true ∧ q.admits c = true)) ∧
  ∀ c, ∀ r ∈ opcodeTable, r.admits c = true → ∃ i, decode c = .command i ∧ i.mnemonic = r.mnemonic

/-- 30_encoding.md §6: the five worked encodings. -/
def Obligations.WorkedEncodingsDecode : Prop :=
  decode 0x2000001F00000007 = .command (.encPacketId 0 31 7) ∧
  decode 0x2100301F41AC0000 = .command (.encTemperature 3 31 0x41AC0000) ∧
  decode 0x240FB100447D5000 = .command (.encPressure 251 256 0x447D5000) ∧
  decode 0x1000001F00010202 = .command (.wrHdr 0 31 true 2 0x02) ∧
  decode 0x1200201F0000FDF3 = .command (.wrLe2 2 31 0x0000FDF3)

/-- 30_encoding.md R68: the 247 illegal values of OP, the all-zero and the all-ones word among their words. -/
def Obligations.IllegalOpcodeReportsErrCmd : Prop :=
  (∃ l : List Nat, l.Nodup ∧ l.length = 247 ∧ ∀ n, n ∈ l ↔ IllegalOp n) ∧
  (∀ (c : Word) (s : State), IllegalOp (c.extractLsb' 56 8).toNat →
    (∃ why, decode c = .illegal why) ∧ runCommand c s = .next { s with res := 0xFD }) ∧
  ∀ s, runCommand 0x0000000000000000 s = .next { s with res := 0xFD } ∧
    runCommand 0xFFFFFFFFFFFFFFFF s = .next { s with res := 0xFD }

/-- 30_encoding.md R69: reserved bits and illegal operand values end in ERR_CMD, no other command has reserved
bits, and no value of OFF keeps a word from being a command. -/
def Obligations.IllegalOperandsReportErrCmd : Prop :=
  (∀ (c : Word) (s : State), c.extractLsb' 56 8 = 0x10 → c.extractLsb' 17 15 ≠ 0 →
    runCommand c s = .next { s with res := 0xFD }) ∧
  (∀ (off cap dlen : Nat) (sgn : Bool) (tid : Byte) (s : State), dlen = 0 ∨ 4 ≤ dlen →
    exec (.wrHdr off cap sgn dlen tid) s = .next { s with res := 0xFD }) ∧
  (∀ (i : Instr) (s : State), i.cap > s.cfg.bufSize → exec i s = .next { s with res := 0xFD }) ∧
  (∀ c : Word, c.extractLsb' 56 8 ∈
      ([0x11, 0x12, 0x13, 0x20, 0x21, 0x22, 0x23, 0x24] : List (BitVec 8)) ∨
      (c.extractLsb' 56 8 = 0x10 ∧ c.extractLsb' 17 15 = 0) →
    ∃ i, decode c = .command i)

-- Steps, the host and reset

/-- A step runs the decoded command: 10_state.md R20, R25, on the model's list of host moves (DESIGN CHOICE, log
entry 4); the host's other moves are left. -/
def Obligations.StepRunsDecodedCommand : Prop :=
  ∀ (s : State) (ms : List HostMove) (i : Instr),
    (∀ c, decode c = .command i → s.moves = .issue c :: ms → step s = exec i { s with moves := ms }) ∧
    (i.wellFormed = true → s.moves = .issue (encode i) :: ms → step s = exec i { s with moves := ms })

/-- The model's choice (DESIGN CHOICE, log entry 5): with nothing to do, the idle block changes nothing. -/
def Obligations.IdleStepChangesNothing : Prop :=
  ∀ s : State, s.moves = [] → step s = .next s

/-- What a host's read gives and what the reset event leaves, on the model's lists of host moves and readings
(DESIGN CHOICE, log entry 4): 10_state.md R21, R26. That an unwritten byte and an address outside BUF are faults,
and that reset keeps the host's lists, are the model's (log entries 3, 16 and 9). -/
def Obligations.HostMovesAnswer : Prop :=
  ∀ (s : State) (ms : List HostMove),
    (s.moves = .readRes :: ms →
      step s = .next { s with moves := ms, seen := s.seen ++ [.res s.res] }) ∧
    (∀ a, s.moves = .readBuf a :: ms →
      (a < s.cfg.bufSize → ∀ v, s.buf.read a = some v →
        step s = .next { s with moves := ms, seen := s.seen ++ [.buf a v] }) ∧
      (a < s.cfg.bufSize → s.buf.read a = none → step s = .fault (.unwrittenByte a)) ∧
      (s.cfg.bufSize ≤ a → step s = .fault (.noSuchByte a))) ∧
    ∀ cut, s.moves = .reset cut :: ms → step s = .next { s with moves := ms, buf := [], res := 0x00 }

/-- 10_state.md R29, for an instance just built and for every later reset event, whether or not a command was
under way: RES is 0x00, no byte of BUF holds a value, the parameters are as built. That a host read of such a byte
is a fault is the model's way to give it no value (DEDUCED, log entries 3 and 9). -/
def Obligations.ResetLeavesResZeroAndBufWithoutValue : Prop :=
  (∀ (P : Config) (a : Nat), (State.resetOf P).res = 0x00 ∧ (State.resetOf P).cfg = P ∧
    (State.resetOf P).buf.read a = none) ∧
  ∀ (s : State) (cut : Option Word), ∃ t, runMove (.reset cut) s = .next t ∧ t.res = 0x00 ∧ t.cfg = s.cfg ∧
    ∀ a, t.buf.read a = none ∧ (a < t.cfg.bufSize → hostReadBuf a t = .fault (.unwrittenByte a))

/-- 10_state.md R30: no step, a reset among them, changes the parameters (the field that carries them is log
entry 1). -/
def Obligations.StepKeepsParameters : Prop :=
  ∀ s t : State, step s = .next t → t.cfg = s.cfg

/-- The invariant of a reachable state is kept by every step. -/
def Obligations.StepKeepsInvariant : Prop :=
  ∀ s t : State, s.Inv → step s = .next t → t.Inv

/-- The invariant holds right after reset, for every legal choice of the parameters and for the defaults, which are
PRESUMED (log entry 2). -/
def Obligations.ResetMeetsInvariant : Prop :=
  (∀ P : Config, P.Valid → (State.resetOf P).Inv) ∧ State.reset.Inv

-- Memory and the header

/-- 20_memory.md R44: little-endian. -/
def Obligations.MemWriteIsLittleEndian : Prop :=
  ∀ (a w v : Nat) (s : State),
    (∀ k, k < w → (s.memWrite a w v).buf.read (a + k) = some (BitVec.ofNat 8 (v / 2 ^ (8 * k)))) ∧
    UnchangedOutside a w s (s.memWrite a w v) ∧ (s.memWrite a w v).res = s.res

/-- 40_header_writer.md R80: the two header bytes, that the parts of byte 0 do not overlap, and the format, the
length and the identifier of every header a command writes. -/
def Obligations.HeaderBytesLayout : Prop :=
  ∀ (fmt : BitVec 3) (plen : BitVec 5) (tid : Byte) (a : Nat) (s : State),
    ∃ b : Byte, (s.writeHdr a fmt plen.toNat tid).buf.read a = some b ∧
      (s.writeHdr a fmt plen.toNat tid).buf.read (a + 1) = some tid ∧
      b.extractLsb' 5 3 = fmt ∧ b.extractLsb' 0 5 = plen ∧
      b.toNat = (fmt.toNat <<< 5) ||| plen.toNat ∧ b.toNat = fmt.toNat * 32 + plen.toNat ∧ b.toNat < 256 ∧
      ∀ (off cap : Nat) (t : State), resFailed t.res = false →
        (∀ sgn dlen id, exec (.wrHdr off cap sgn dlen id) s = .next t →
          t.buf.read off = some (headerByte (formatOf s.cfg sgn) (dlen + 1)) ∧ t.buf.read (off + 1) = some id) ∧
        ∀ (f : Field) (val : BitVec 32), exec (f.command off cap val) s = .next t →
          t.buf.read off = some (headerByte (formatOf s.cfg f.signed) (f.width + 1)) ∧
            t.buf.read (off + 1) = some (f.tid s.cfg)

-- Completion of each command

/-- 40_header_writer.md R81, the success path. -/
def Obligations.WrHdrCompletes : Prop :=
  ∀ (off cap : Nat) (sgn : Bool) (dlen : Nat) (tid : Byte) (s : State),
    cap ≤ s.cfg.bufSize → 1 ≤ dlen → dlen ≤ 3 → off + 2 ≤ cap →
    ∃ t, exec (.wrHdr off cap sgn dlen tid) s = .next t ∧ t.res = 0x02 ∧
      t.buf.read off =
        some (headerByte (if sgn then s.cfg.fmtSigned else s.cfg.fmtUnsigned) (dlen + 1)) ∧
      t.buf.read (off + 1) = some tid ∧ UnchangedOutside off 2 s t

/-- 41_scalar_writer.md R91, the success path. -/
def Obligations.WrLe1Completes : Prop :=
  ∀ (off cap : Nat) (val : BitVec 32) (s : State), cap ≤ s.cfg.bufSize → off + 1 ≤ cap →
    ∃ t, exec (.wrLe1 off cap val) s = .next t ∧ t.res = 0x01 ∧
      t.buf.read off = some (val.extractLsb' 0 8) ∧ UnchangedOutside off 1 s t

/-- 41_scalar_writer.md R92, the success path. -/
def Obligations.WrLe2Completes : Prop :=
  ∀ (off cap : Nat) (val : BitVec 32) (s : State), cap ≤ s.cfg.bufSize → off + 2 ≤ cap →
    ∃ t, exec (.wrLe2 off cap val) s = .next t ∧ t.res = 0x02 ∧
      t.buf.read off = some (val.extractLsb' 0 8) ∧
      t.buf.read (off + 1) = some (val.extractLsb' 8 8) ∧ UnchangedOutside off 2 s t

/-- 41_scalar_writer.md R93, the success path. -/
def Obligations.WrLe3Completes : Prop :=
  ∀ (off cap : Nat) (val : BitVec 32) (s : State), cap ≤ s.cfg.bufSize → off + 3 ≤ cap →
    ∃ t, exec (.wrLe3 off cap val) s = .next t ∧ t.res = 0x03 ∧
      t.buf.read off = some (val.extractLsb' 0 8) ∧
      t.buf.read (off + 1) = some (val.extractLsb' 8 8) ∧
      t.buf.read (off + 2) = some (val.extractLsb' 16 8) ∧ UnchangedOutside off 3 s t

/-- 43_field_encoders.md R122, the success path. -/
def Obligations.EncPacketIdCompletes : Prop :=
  ∀ (off cap : Nat) (val : BitVec 32) (s : State),
    cap ≤ s.cfg.bufSize → val.toNat ≤ 255 → off + 3 ≤ cap →
    ∃ t, exec (.encPacketId off cap val) s = .next t ∧ t.res = 0x03 ∧
      t.buf.read off = some (headerByte s.cfg.fmtUnsigned 2) ∧
      t.buf.read (off + 1) = some s.cfg.idPacketId ∧
      t.buf.read (off + 2) = some (val.extractLsb' 0 8) ∧ UnchangedOutside off 3 s t

/-- 43_field_encoders.md R123, the success path: `pat = tc_16(n)`. -/
def Obligations.EncTemperatureCompletes : Prop :=
  ∀ (off cap : Nat) (val : BitVec 32) (n : Int) (s : State),
    cap ≤ s.cfg.bufSize → scaleTrunc val 100 = some n → -32768 ≤ n → n ≤ 32767 → off + 4 ≤ cap →
    ∃ t, exec (.encTemperature off cap val) s = .next t ∧ t.res = 0x04 ∧
      t.buf.read off = some (headerByte s.cfg.fmtSigned 3) ∧
      t.buf.read (off + 1) = some s.cfg.idTemperature ∧
      t.buf.read (off + 2) = some ((BitVec.ofInt 16 n).extractLsb' 0 8) ∧
      t.buf.read (off + 3) = some ((BitVec.ofInt 16 n).extractLsb' 8 8) ∧ UnchangedOutside off 4 s t

/-- 43_field_encoders.md R124, the success path. -/
def Obligations.EncHumidityCompletes : Prop :=
  ∀ (off cap : Nat) (val : BitVec 32) (n : Nat) (s : State),
    cap ≤ s.cfg.bufSize → scaleTrunc val 100 = some (n : Int) → n ≤ 65535 → off + 4 ≤ cap →
    ∃ t, exec (.encHumidity off cap val) s = .next t ∧ t.res = 0x04 ∧
      t.buf.read off = some (headerByte s.cfg.fmtUnsigned 3) ∧
      t.buf.read (off + 1) = some s.cfg.idHumidity ∧
      t.buf.read (off + 2) = some (BitVec.ofNat 8 (n % 256)) ∧
      t.buf.read (off + 3) = some (BitVec.ofNat 8 (n / 256)) ∧ UnchangedOutside off 4 s t

/-- 43_field_encoders.md R125, the success path. -/
def Obligations.EncBatteryCompletes : Prop :=
  ∀ (off cap : Nat) (val : BitVec 32) (n : Nat) (s : State),
    cap ≤ s.cfg.bufSize → scaleTrunc val 1 = some (n : Int) → n ≤ 65535 → off + 4 ≤ cap →
    ∃ t, exec (.encBattery off cap val) s = .next t ∧ t.res = 0x04 ∧
      t.buf.read off = some (headerByte s.cfg.fmtUnsigned 3) ∧
      t.buf.read (off + 1) = some s.cfg.idBattery ∧
      t.buf.read (off + 2) = some (BitVec.ofNat 8 (n % 256)) ∧
      t.buf.read (off + 3) = some (BitVec.ofNat 8 (n / 256)) ∧ UnchangedOutside off 4 s t

/-- 43_field_encoders.md R126, the success path. -/
def Obligations.EncPressureCompletes : Prop :=
  ∀ (off cap : Nat) (val : BitVec 32) (n : Nat) (s : State),
    cap ≤ s.cfg.bufSize → scaleTrunc val 100 = some (n : Int) → n ≤ 16777215 → off + 5 ≤ cap →
    ∃ t, exec (.encPressure off cap val) s = .next t ∧ t.res = 0x05 ∧
      t.buf.read off = some (headerByte s.cfg.fmtUnsigned 4) ∧
      t.buf.read (off + 1) = some s.cfg.idPressure ∧
      t.buf.read (off + 2) = some (BitVec.ofNat 8 (n % 256)) ∧
      t.buf.read (off + 3) = some (BitVec.ofNat 8 (n / 256 % 256)) ∧
      t.buf.read (off + 4) = some (BitVec.ofNat 8 (n / 65536)) ∧ UnchangedOutside off 5 s t

-- Scalar writers

/-- 30_encoding.md R67: the operand is the low bit pattern of VAL, and the bits above the width do not matter. -/
def Obligations.RawUpperBitsIgnored : Prop :=
  (∀ w mk, (w, mk) ∈ scalarWriters → ∀ (off cap : Nat) (u v : BitVec 32) (s : State),
    (u.extractLsb' 0 (8 * w) = v.extractLsb' 0 (8 * w) → exec (mk off cap u) s = exec (mk off cap v) s) ∧
    ∀ t, exec (mk off cap u) s = .next t → resFailed t.res = false →
      ∀ k, k < w → t.buf.read (off + k) = some (u.extractLsb' (8 * k) 8)) ∧
  ∀ (off cap : Nat) (x : BitVec 16) (s : State),
    exec (.wrLe2 off cap (x.signExtend 32)) s = exec (.wrLe2 off cap (x.setWidth 32)) s

/-- 41_scalar_writer.md R94: a scalar writer returns its width or writes nothing. -/
def Obligations.ScalarWritesWidthOrNothing : Prop :=
  ∀ w mk, (w, mk) ∈ scalarWriters → ∀ (off cap : Nat) (val : BitVec 32) (s : State),
    ∃ t, exec (mk off cap val) s = .next t ∧
      ((resFailed t.res = false ∧ t.res.toNat = w ∧ (∀ k, k < w → (t.buf.read (off + k)).isSome = true) ∧
          UnchangedOutside off w s t) ∨
        (resFailed t.res = true ∧ t.buf = s.buf))

/-- 41_scalar_writer.md R95, which the spec marks "[derived: from rule R90 and 00_scope.md rule R9]":
whatever the operand, reading BUF back gives it. -/
def Obligations.ScalarReadBack : Prop :=
  ∀ w mk, (w, mk) ∈ scalarWriters → ∀ (off cap : Nat) (val : BitVec 32) (s : State),
    cap ≤ s.cfg.bufSize → off + w ≤ cap →
    ∃ t, exec (mk off cap val) s = .next t ∧ resFailed t.res = false ∧
      t.buf.memRead off w = some (val.toNat % 2 ^ (8 * w))

-- Field encoders

/-- 43_field_encoders.md R121: `EncodeField` with the constants of R120 and 42_fixed_point_conversion.md R106, its
checks in order, for all five field encoders. -/
def Obligations.FieldEncodersFollowEncodeField : Prop :=
  ∀ (f : Field) (off cap : Nat) (val : BitVec 32) (s : State),
    (cap > s.cfg.bufSize → exec (f.command off cap val) s = .next { s with res := 0xFD }) ∧
    (cap ≤ s.cfg.bufSize → (¬ ∃ n, f.Accepts val n) →
      exec (f.command off cap val) s = .next { s with res := 0xFE }) ∧
    (cap ≤ s.cfg.bufSize → (∃ n, f.Accepts val n) → off + 2 + f.width > cap →
      exec (f.command off cap val) s = .next { s with res := 0xFF }) ∧
    ∀ n, cap ≤ s.cfg.bufSize → f.Accepts val n → off + 2 + f.width ≤ cap →
      ∃ t, exec (f.command off cap val) s = .next t ∧ t.res = BitVec.ofNat 8 (2 + f.width) ∧
        HoldsBytes off (f.bytes s.cfg n) t ∧ UnchangedOutside off (2 + f.width) s t

/-- 40_header_writer.md R82, which the spec marks "[derived: from rule R80 and rule R81]": the format and
the length can be read back from every header written. -/
def Obligations.HeaderRoundTrip : Prop :=
  ∀ (off cap : Nat) (s t : State), s.cfg.Valid → resFailed t.res = false →
    (∀ sgn dlen tid, exec (.wrHdr off cap sgn dlen tid) s = .next t →
      ∃ b, t.buf.read off = some b ∧ b.extractLsb' 5 3 = formatOf s.cfg sgn ∧
        (b.extractLsb' 0 5).toNat = dlen + 1 ∧ (b.extractLsb' 5 3 = s.cfg.fmtSigned ↔ sgn = true)) ∧
    (∀ (f : Field) (val : BitVec 32), exec (f.command off cap val) s = .next t →
      ∃ b, t.buf.read off = some b ∧ b.extractLsb' 5 3 = formatOf s.cfg f.signed ∧
        (b.extractLsb' 0 5).toNat = f.width + 1 ∧
        (b.extractLsb' 5 3 = s.cfg.fmtSigned ↔ f.signed = true))

/-- 43_field_encoders.md R127: the count is the declared payload length plus one. -/
def Obligations.CountIsDeclaredLengthPlusOne : Prop :=
  ∀ (f : Field) (off cap : Nat) (val : BitVec 32) (s t : State),
    exec (f.command off cap val) s = .next t → resFailed t.res = false →
    ∃ b, t.buf.read off = some b ∧ t.res.toNat = (b.extractLsb' 0 5).toNat + 1 ∧
      t.res.toNat = 2 + f.width

/-- 43_field_encoders.md R128 and 40_header_writer.md R83, which the spec marks as derived: a field encoder leaves the
bytes its two primitives leave, and the counts add up; when the room runs out between the two primitives, the pair
leaves a header and the encoder leaves nothing. -/
def Obligations.EncoderEqualsItsPrimitives : Prop :=
  ∀ (f : Field) (mk : Nat → Nat → BitVec 32 → Instr) (off cap : Nat) (val : BitVec 32) (n : Int) (s : State),
    (f.width, mk) ∈ scalarWriters → f.Accepts val n → cap ≤ s.cfg.bufSize → off + 2 ≤ cap →
    ∃ t t₁ t₂, exec (f.command off cap val) s = .next t ∧
      exec (.wrHdr off cap f.signed f.width (f.tid s.cfg)) s = .next t₁ ∧
      exec (mk (off + 2) cap (BitVec.ofNat 32 (tc (8 * f.width) n))) t₁ = .next t₂ ∧
      (off + 2 + f.width ≤ cap →
        t.buf = t₂.buf ∧ t.res.toNat = t₁.res.toNat + t₂.res.toNat ∧
          resFailed t.res = false ∧ resFailed t₁.res = false ∧ resFailed t₂.res = false) ∧
      (cap < off + 2 + f.width →
        t = { s with res := 0xFF } ∧ t₁.res = 0x02 ∧ t₂ = { t₁ with res := 0xFF } ∧
          HoldsBytes off [headerByte (formatOf s.cfg f.signed) (f.width + 1), f.tid s.cfg] t₂)

/-- 43_field_encoders.md R130: exactly enough room succeeds, one byte less changes no byte. -/
def Obligations.BoundaryOfTheWindow : Prop :=
  ∀ (f : Field) (off cap : Nat) (val : BitVec 32) (n : Int) (s : State),
    f.Accepts val n → cap ≤ s.cfg.bufSize →
    (cap = off + need (f.command off cap val) →
      ∃ t, exec (f.command off cap val) s = .next t ∧ t.res.toNat = need (f.command off cap val) ∧
        resFailed t.res = false) ∧
    (cap + 1 = off + need (f.command off cap val) →
      exec (f.command off cap val) s = .next { s with res := 0xFF })

/-- 43_field_encoders.md R129, 70_reset_and_hazards.md R174, R175: a host that advances OFF by the count after a
success and keeps it after a failure gets fields back to back, and no later command touches an earlier field. -/
def Obligations.PackingKeepsEarlierFields : Prop :=
  ∀ (i j : Instr) (s t u : State), exec i s = .next t → j.off = nextOffset i.off t.res →
    exec j t = .next u →
    (resFailed t.res = false → j.off = i.off + need i) ∧
    (resFailed t.res = true → j.off = i.off ∧ t.buf = s.buf) ∧
    (∀ a, a < j.off → u.buf.read a = t.buf.read a) ∧
    (resFailed t.res = false → ∀ k, k < need i → (u.buf.read (i.off + k)).isSome = true)

/-- 42_fixed_point_conversion.md R111: the packet id is the integer itself, never reduced modulo 256. -/
def Obligations.PacketIdIsNeverReduced : Prop :=
  ∀ (off cap : Nat) (val : BitVec 32) (s : State), cap ≤ s.cfg.bufSize →
    (256 ≤ val.toNat → exec (.encPacketId off cap val) s = .next { s with res := 0xFE }) ∧
    (val.toNat ≤ 255 → off + 3 ≤ cap →
      ∃ t b, exec (.encPacketId off cap val) s = .next t ∧ t.buf.read (off + 2) = some b ∧
        b.toNat = val.toNat)

-- Conversion

/-- 42_fixed_point_conversion.md R103: `ScaleTrunc` is the truncation of the exact product. -/
def Obligations.ScaleTruncIsExact : Prop :=
  (∀ (val : BitVec 32) (S : Nat),
    scaleTrunc val S = (valueOf val).map fun x => truncQ (x * (S : ℚ))) ∧
  scaleTrunc 0x41AC0000 100 = some 2150

/-- 42_fixed_point_conversion.md R106, the last column: which readings each field accepts. -/
def Obligations.AcceptedReadings : Prop :=
  ∀ val : BitVec 32,
    ((∃ n, Field.packetId.Accepts val n) ↔ val.toNat ≤ 255) ∧
    ((∃ n, Field.temperature.Accepts val n) ↔
      ∃ x, valueOf val = some x ∧ (-32769 / 100 : ℚ) < x ∧ x < (32768 / 100 : ℚ)) ∧
    ((∃ n, Field.humidity.Accepts val n) ↔
      ∃ x, valueOf val = some x ∧ (-1 / 100 : ℚ) < x ∧ x < (65536 / 100 : ℚ)) ∧
    ((∃ n, Field.battery.Accepts val n) ↔ ∃ x, valueOf val = some x ∧ (-1 : ℚ) < x ∧ x < (65536 : ℚ)) ∧
    ((∃ n, Field.pressure.Accepts val n) ↔
      ∃ x, valueOf val = some x ∧ (-1 / 100 : ℚ) < x ∧ x < (16777216 / 100 : ℚ))

/-- 42_fixed_point_conversion.md R107, whose two's complement the spec marks "[from general knowledge, not in
source]": the pattern of a value and the bytes written for it. -/
def Obligations.TwosComplementPattern : Prop :=
  ∀ (w : Nat) (n : Int), 1 ≤ w → -(2 ^ (8 * w - 1) : Int) ≤ n → n < (2 ^ (8 * w) : Int) →
    (0 ≤ n → (tc (8 * w) n : Int) = n) ∧ (n < 0 → (tc (8 * w) n : Int) = 2 ^ (8 * w) + n) ∧
    leBytes (tc (8 * w) n) w = (List.range w).map (valueByte w n)

/-- 42_fixed_point_conversion.md R108: negative zero and readings whose product is below one in magnitude give 0
and are accepted by every field; the patterns the rule names. -/
def Obligations.SmallReadingsGiveZero : Prop :=
  (∀ (f : Field) (val : BitVec 32) (x : ℚ), f ≠ .packetId → valueOf val = some x →
    |x * (f.scale : ℚ)| < 1 → f.Accepts val 0 ∧
      ∀ off cap s, cap ≤ s.cfg.bufSize → off + 2 + f.width ≤ cap →
        ∃ t, exec (f.command off cap val) s = .next t ∧ resFailed t.res = false ∧
          ∀ k, k < f.width → t.buf.read (off + 2 + k) = some 0x00) ∧
  valueOf 0x80000000 = some 0 ∧ scaleTrunc 0x80000000 100 = some 0 ∧ scaleTrunc 0x80000000 1 = some 0 ∧
  valueOf 0xBC23D70A = some (-0.00999999977648258209228515625) ∧
  scaleTrunc 0xBC23D70A 100 = some 0 ∧ scaleTrunc 0xBC23D70B 100 = some (-1) ∧
  Field.humidity.Accepts 0xBA83126F 0 ∧ scaleTrunc 0xBF000000 100 = some (-50) ∧
  ∀ off cap s, cap ≤ s.cfg.bufSize →
    exec (.encHumidity off cap 0xBF000000) s = .next { s with res := 0xFE }

/-- 42_fixed_point_conversion.md R109: an infinity or a NaN is ERR_RANGE in all four F32 commands. -/
def Obligations.NotFiniteReportsErrRange : Prop :=
  ∀ (off cap : Nat) (val : BitVec 32) (s : State), val.extractLsb' 23 8 = 255 → cap ≤ s.cfg.bufSize →
    exec (.encTemperature off cap val) s = .next { s with res := 0xFE } ∧
    exec (.encHumidity off cap val) s = .next { s with res := 0xFE } ∧
    exec (.encBattery off cap val) s = .next { s with res := 0xFE } ∧
    exec (.encPressure off cap val) s = .next { s with res := 0xFE }

/-- 42_fixed_point_conversion.md R110, which the spec marks "[derived: from rule R103 and rule R106]": (a) subnormals
give 0; (b) an exponent of 151 or more is out of range for every field, and up to 150 the magnitude fits 31 bits;
(c) a product below one in magnitude gives 0. -/
def Obligations.ConversionBounds : Prop :=
  ∀ (val : BitVec 32) (S : Nat), S = 1 ∨ S = 100 →
    (f32Exp val = 0 → scaleTrunc val S = some 0) ∧
    (151 ≤ f32Exp val → f32Exp val ≤ 254 →
      (∃ n, scaleTrunc val S = some n ∧ 16777215 < |n|) ∧
        ∀ f : Field, f ≠ .packetId → ¬ ∃ n, f.Accepts val n) ∧
    (f32Exp val ≤ 150 → ∃ n, scaleTrunc val S = some n ∧ |n| < 2 ^ 31) ∧
    (∀ x, valueOf val = some x → |x| * (S : ℚ) < 1 → scaleTrunc val S = some 0)

/-- 42_fixed_point_conversion.md R113, which the spec marks "[derived: from rule R102 and rule R103]": odd symmetry,
the bounds of truncation, monotonicity, integers kept, and the source document's four products. -/
def Obligations.ScaleTruncLaws : Prop :=
  (∀ (S : Nat), S = 1 ∨ S = 100 → ∀ (u v : BitVec 32) (x y : ℚ), valueOf u = some x → valueOf v = some y →
    ∃ n m, scaleTrunc u S = some n ∧ scaleTrunc v S = some m ∧
      scaleTrunc (u ^^^ 0x80000000) S = some (-n) ∧
      ((|n| : ℤ) : ℚ) ≤ |x| * (S : ℚ) ∧ |x| * (S : ℚ) < ((|n| : ℤ) : ℚ) + 1 ∧
      (x ≤ y → n ≤ m) ∧ ∀ k : ℤ, x * (S : ℚ) = (k : ℚ) → n = k) ∧
  scaleTrunc 0x41AC0000 100 = some 2150 ∧ scaleTrunc 0x425D0000 100 = some 5525 ∧
  scaleTrunc 0x42AE0000 1 = some 87 ∧ scaleTrunc 0x447D5000 100 = some 101325

-- All commands

/-- 60_exceptions.md R142, R143: every cause of a failure, in the order of priority, and success otherwise. -/
def Obligations.FailureCausesAndPriority : Prop :=
  ∀ (c : Word) (s : State),
    (∀ why, decode c = .illegal why → runCommand c s = .next { s with res := 0xFD }) ∧
    ∀ i, decode c = .command i →
      (CmdCause s.cfg i → runCommand c s = .next { s with res := 0xFD }) ∧
      (¬ CmdCause s.cfg i → RangeCause i → runCommand c s = .next { s with res := 0xFE }) ∧
      (¬ CmdCause s.cfg i → ¬ RangeCause i → CapCause i →
        runCommand c s = .next { s with res := 0xFF }) ∧
      (¬ CmdCause s.cfg i → ¬ RangeCause i → ¬ CapCause i →
        ∃ t, runCommand c s = .next t ∧ t.res = BitVec.ofNat 8 (need i))

/-- 60_exceptions.md R141: the codes RES takes, bit 7, that a failure records nothing else, and that the code of a
success is the number of bytes written. -/
def Obligations.ResultCodes : Prop :=
  ∀ (c : Word) (s t : State), runCommand c s = .next t →
    (t = { s with res := 0xFF } ∧ resSigned t.res = -1 ∧ resFailed t.res = true) ∨
    (t = { s with res := 0xFE } ∧ resSigned t.res = -2 ∧ resFailed t.res = true) ∨
    (t = { s with res := 0xFD } ∧ resSigned t.res = -3 ∧ resFailed t.res = true) ∨
    (∃ i, decode c = .command i ∧ resSigned t.res = (need i : Int) ∧ 1 ≤ need i ∧ need i ≤ 5 ∧
      resFailed t.res = false ∧ (∀ k, k < need i → (t.buf.read (i.off + k)).isSome = true) ∧
      UnchangedOutside i.off (need i) s t)

/-- 20_memory.md R50, 60_exceptions.md R144: a command answers, and either writes all its bytes, at ascending
addresses from OFF, or changes RES alone; a failing word, an illegal one too, changes nothing but RES. -/
def Obligations.CommandIsAtomic : Prop :=
  (∀ (i : Instr) (s : State), ∃ t, exec i s = .next t ∧
    ((∃ bytes : List Byte, bytes.length = need i ∧
        t = { s with buf := s.buf.applyWrites (portWrites i.off bytes), res := BitVec.ofNat 8 (need i) } ∧
        HoldsBytes i.off bytes t ∧ UnchangedOutside i.off (need i) s t) ∨
      (∃ e : Failure, t = { s with res := e.code }))) ∧
  ∀ (c : Word) (s t : State), runCommand c s = .next t → resFailed t.res = true → t = { s with res := t.res }

/-- 20_memory.md R46: a byte a command changes lies in the window, inside BUF, and among the `need` bytes from
OFF. -/
def Obligations.WritesOnlyInsideTheWindow : Prop :=
  ∀ (i : Instr) (s t : State) (a : Nat), exec i s = .next t → t.buf.read a ≠ s.buf.read a →
    i.off ≤ a ∧ a < i.off + need i ∧ a < i.cap ∧ i.cap ≤ s.cfg.bufSize

/-- 10_state.md R27, R28: RES and the writes are a function of the word and the parameters; BUF, RES and
everything earlier do not matter. -/
def Obligations.OutcomeDependsOnWordAndParameters : Prop :=
  ∀ (P : Config) (c : Word), ∃ (ws : List Host.Cell) (r : Byte), ∀ s : State, s.cfg = P →
    runCommand c s = .next { s with buf := s.buf.applyWrites ws, res := r }

/-- 20_memory.md R48: issuing a command twice is issuing it once. -/
def Obligations.CommandsAreIdempotent : Prop :=
  ∀ (c : Word) (s t : State), Memory.wf s.buf = true → runCommand c s = .next t → runCommand c t = .next t
end

