-- ==== Sys2Proof/Laws/Decode.lean ====
section
/-! SUPPORT. The fields of a packed word (30_encoding.md R61, R66), read as numbers. -/

namespace Sys2Proof

theorem toNat_beside {m n : Nat} (x : BitVec m) (y : BitVec n) :
    (x ++ y).toNat = x.toNat * 2 ^ n + y.toNat := by
  rw [BitVec.toNat_append, ← Nat.shiftLeft_add_eq_or_of_lt y.isLt, Nat.shiftLeft_eq]

/-- `c = (OP << 56) | (OFF << 44) | (CAP << 32) | VAL` (30_encoding.md R61), as a number. -/
theorem packWord_toNat (op : BitVec 8) (off cap : Nat) (val : BitVec 32) :
    (packWord op off cap val).toNat =
      op.toNat * 2 ^ 56 + (off % 4096) * 2 ^ 44 + (cap % 4096) * 2 ^ 32 + val.toNat := by
  show (op ++ (BitVec.ofNat 12 off ++ (BitVec.ofNat 12 cap ++ val)) : BitVec (8 + (12 + (12 + 32)))).toNat = _
  rw [toNat_beside, toNat_beside, toNat_beside]
  simp only [BitVec.toNat_ofNat]
  omega

/-- VAL of a WR_HDR (30_encoding.md R66), as a number. -/
theorem hdrVal_toNat (sgn : Bool) (dlen : Nat) (tid : Byte) :
    (hdrVal sgn dlen tid).toNat = sgn.toNat * 2 ^ 16 + (dlen % 256) * 2 ^ 8 + tid.toNat := by
  show ((0 : BitVec 15) ++ (BitVec.ofBool sgn ++ (BitVec.ofNat 8 dlen ++ tid)) :
    BitVec (15 + (1 + (8 + 8)))).toNat = _
  rw [toNat_beside, toNat_beside, toNat_beside]
  cases sgn <;> simp [BitVec.toNat_ofNat]; omega

/-! Each field of a word, as a number. -/

variable (c : Word)

theorem opField_toNat : (opField c).toNat = c.toNat / 2 ^ 56 := by
  have := c.isLt
  simp only [opField, BitVec.extractLsb'_toNat, Nat.shiftRight_eq_div_pow]
  omega

theorem offField_eq : offField c = c.toNat / 2 ^ 44 % 4096 := by
  simp only [offField, BitVec.extractLsb'_toNat, Nat.shiftRight_eq_div_pow]

theorem capField_eq : capField c = c.toNat / 2 ^ 32 % 4096 := by
  simp only [capField, BitVec.extractLsb'_toNat, Nat.shiftRight_eq_div_pow]

theorem valField_toNat : (valField c).toNat = c.toNat % 2 ^ 32 := by
  simp only [valField, BitVec.extractLsb'_toNat, Nat.shiftRight_zero]

theorem rsvdField_toNat : (rsvdField c).toNat = c.toNat / 2 ^ 17 % 2 ^ 15 := by
  simp only [rsvdField, BitVec.extractLsb'_toNat, Nat.shiftRight_eq_div_pow]

theorem dlenField_eq : dlenField c = c.toNat / 2 ^ 8 % 256 := by
  simp only [dlenField, BitVec.extractLsb'_toNat, Nat.shiftRight_eq_div_pow]

theorem tidField_toNat : (tidField c).toNat = c.toNat % 256 := by
  simp only [tidField, BitVec.extractLsb'_toNat, Nat.shiftRight_zero]

theorem sgnField_toNat : (sgnField c).toNat = c.toNat / 2 ^ 16 % 2 := by
  rw [sgnField, BitVec.getLsbD, Nat.toNat_testBit]

theorem offField_lt : offField c < 4096 := by rw [offField_eq]; omega
theorem capField_lt : capField c < 4096 := by rw [capField_eq]; omega
theorem dlenField_lt : dlenField c < 256 := by rw [dlenField_eq]; omega

theorem rsvdField_eq_zero : rsvdField c = 0 ↔ c.toNat / 2 ^ 17 % 2 ^ 15 = 0 := by
  rw [← BitVec.toNat_inj, rsvdField_toNat]
  rfl

/-! The fields of a packed word are what was packed. -/

variable (op : BitVec 8) (off cap : Nat) (val : BitVec 32)

@[simp] theorem opField_packWord : opField (packWord op off cap val) = op := by
  have := val.isLt
  apply BitVec.eq_of_toNat_eq
  rw [opField_toNat, packWord_toNat]
  omega

@[simp] theorem valField_packWord : valField (packWord op off cap val) = val := by
  have := val.isLt
  apply BitVec.eq_of_toNat_eq
  rw [valField_toNat, packWord_toNat]
  omega

theorem offField_packWord (h : off < 4096) : offField (packWord op off cap val) = off := by
  have := val.isLt
  rw [offField_eq, packWord_toNat]
  omega

theorem capField_packWord (h : cap < 4096) : capField (packWord op off cap val) = cap := by
  have := val.isLt
  rw [capField_eq, packWord_toNat]
  omega

/-- A word is its four fields side by side (30_encoding.md R61). -/
theorem packWord_fields : packWord (opField c) (offField c) (capField c) (valField c) = c := by
  have := c.isLt
  apply BitVec.eq_of_toNat_eq
  rw [packWord_toNat, opField_toNat, offField_eq, capField_eq, valField_toNat]
  omega

/-! Form HDR (30_encoding.md R66). -/

variable (sgn : Bool) (dlen : Nat) (tid : Byte)

theorem packHdr_toNat : (packWord op off cap (hdrVal sgn dlen tid)).toNat % 2 ^ 32 =
    sgn.toNat * 2 ^ 16 + (dlen % 256) * 2 ^ 8 + tid.toNat := by
  rw [← valField_toNat, valField_packWord, hdrVal_toNat]

theorem rsvdField_packHdr : rsvdField (packWord op off cap (hdrVal sgn dlen tid)) = 0 := by
  have := packHdr_toNat op off cap sgn dlen tid
  have := tid.isLt
  have := sgn.toNat_lt
  rw [rsvdField_eq_zero]
  omega

theorem sgnField_packHdr : sgnField (packWord op off cap (hdrVal sgn dlen tid)) = sgn := by
  have := packHdr_toNat op off cap sgn dlen tid
  have := tid.isLt
  have := sgn.toNat_lt
  have h : (sgnField (packWord op off cap (hdrVal sgn dlen tid))).toNat = sgn.toNat := by
    rw [sgnField_toNat]
    omega
  revert h
  generalize sgnField _ = b
  cases b <;> cases sgn <;> simp

theorem dlenField_packHdr (h : dlen < 256) :
    dlenField (packWord op off cap (hdrVal sgn dlen tid)) = dlen := by
  have := packHdr_toNat op off cap sgn dlen tid
  have := tid.isLt
  rw [dlenField_eq]
  omega

theorem tidField_packHdr : tidField (packWord op off cap (hdrVal sgn dlen tid)) = tid := by
  have := packHdr_toNat op off cap sgn dlen tid
  have := tid.isLt
  apply BitVec.eq_of_toNat_eq
  rw [tidField_toNat]
  omega

/-- A VAL with its reserved bits zero is its HDR fields side by side. -/
theorem hdrVal_fields (h : rsvdField c = 0) :
    hdrVal (sgnField c) (dlenField c) (tidField c) = valField c := by
  rw [rsvdField_eq_zero] at h
  apply BitVec.eq_of_toNat_eq
  rw [hdrVal_toNat, sgnField_toNat, dlenField_eq, tidField_toNat, valField_toNat]
  omega

/-! The rows of the opcode table: what the two masks select. -/

theorem and_fieldMask (n j k : Nat) : n &&& ((2 ^ k - 1) * 2 ^ j) = n / 2 ^ j % 2 ^ k * 2 ^ j := by
  rw [← Nat.shiftLeft_eq, ← Nat.shiftLeft_eq, ← Nat.and_two_pow_sub_one_eq_mod, ← Nat.shiftRight_eq_div_pow]
  apply Nat.eq_of_testBit_eq
  intro b
  simp only [Nat.testBit_and, Nat.testBit_shiftLeft, Nat.testBit_shiftRight]
  by_cases hb : j ≤ b
  · simp [hb, show j + (b - j) = b by omega]
  · simp [hb]

theorem and_opMask_toNat : (c &&& 0xFF00000000000000).toNat = (opField c).toNat * 2 ^ 56 := by
  have := c.isLt
  rw [BitVec.toNat_and, show (0xFF00000000000000 : Word).toNat = (2 ^ 8 - 1) * 2 ^ 56 from rfl, and_fieldMask,
    opField_toNat]
  omega

/-- A row whose mask is OP alone admits the words of that OP. -/
theorem admits_opRow (mn : String) (p : Word) (hp : p = packWord op 0 0 0) :
    OpcodeRow.admits ⟨mn, p, 0xFF00000000000000⟩ c = true ↔ opField c = op := by
  subst hp
  simp only [OpcodeRow.admits, beq_iff_eq]
  rw [← BitVec.toNat_inj, and_opMask_toNat, packWord_toNat, ← BitVec.toNat_inj (x := opField c)]
  simp

/-- The row of WR_HDR admits the words of its OP whose reserved bits are zero. -/
theorem admits_hdrRow : OpcodeRow.admits ⟨"WR_HDR", 0x1000000000000000, 0xFF000000FFFE0000⟩ c = true ↔
    opField c = 0x10 ∧ rsvdField c = 0 := by
  have hs : (0xFF000000FFFE0000 : Word) = 0xFF00000000000000 ||| 0x00000000FFFE0000 := rfl
  have hr : (c &&& 0x00000000FFFE0000).toNat = (rsvdField c).toNat * 2 ^ 17 := by
    rw [BitVec.toNat_and, show (0x00000000FFFE0000 : Word).toNat = (2 ^ 15 - 1) * 2 ^ 17 from rfl, and_fieldMask,
      rsvdField_toNat]
  have hlt : (rsvdField c).toNat * 2 ^ 17 < 2 ^ 56 := by
    have := (rsvdField c).isLt
    omega
  have ho : (c &&& 0xFF000000FFFE0000).toNat = (opField c).toNat * 2 ^ 56 + (rsvdField c).toNat * 2 ^ 17 := by
    rw [hs, BitVec.and_or_distrib_left, BitVec.toNat_or, and_opMask_toNat, hr, ← Nat.shiftLeft_eq _ 56,
      Nat.shiftLeft_add_eq_or_of_lt hlt]
  simp only [OpcodeRow.admits, beq_iff_eq]
  rw [← BitVec.toNat_inj, ho, ← BitVec.toNat_inj (x := opField c), ← BitVec.toNat_inj (x := rsvdField c)]
  show _ = 0x1000000000000000 ↔ _ = 0x10 ∧ _ = 0
  omega

/-- A word a row admits has that row's OP. -/
theorem opField_of_admits {r : OpcodeRow} (hr : r ∈ opcodeTable) (h : r.admits c = true) :
    opField c = opField r.pattern := by
  simp only [opcodeTable, List.mem_cons, List.not_mem_nil, or_false] at hr
  rcases hr with rfl | rfl | rfl | rfl | rfl | rfl | rfl | rfl | rfl
  · exact ((admits_hdrRow c).1 h).1
  · exact (admits_opRow c 0x11 _ _ rfl).1 h
  · exact (admits_opRow c 0x12 _ _ rfl).1 h
  · exact (admits_opRow c 0x13 _ _ rfl).1 h
  · exact (admits_opRow c 0x20 _ _ rfl).1 h
  · exact (admits_opRow c 0x21 _ _ rfl).1 h
  · exact (admits_opRow c 0x22 _ _ rfl).1 h
  · exact (admits_opRow c 0x23 _ _ rfl).1 h
  · exact (admits_opRow c 0x24 _ _ rfl).1 h

end Sys2Proof
end

