-- ==== Sys2Proof/Laws/State.lean ====
section
/-! SUPPORT. What each update of the state leaves in each field; every lemma is true by unfolding. -/

namespace Sys2Proof.Machine

variable (s : State) (a n v : Nat) (e : Failure) (fmt : BitVec 3) (tid : Byte)

@[simp] theorem State.memWrite_cfg : (s.memWrite a n v).cfg = s.cfg := rfl
@[simp] theorem State.memWrite_res : (s.memWrite a n v).res = s.res := rfl
@[simp] theorem State.memWrite_moves : (s.memWrite a n v).moves = s.moves := rfl
@[simp] theorem State.memWrite_seen : (s.memWrite a n v).seen = s.seen := rfl
@[simp] theorem State.memWrite_buf :
    (s.memWrite a n v).buf = s.buf.applyWrites (portWrites a (leBytes v n)) := rfl

@[simp] theorem State.setRes_cfg : (s.setRes n).cfg = s.cfg := rfl
@[simp] theorem State.setRes_res : (s.setRes n).res = countCode n := rfl
@[simp] theorem State.setRes_moves : (s.setRes n).moves = s.moves := rfl
@[simp] theorem State.setRes_seen : (s.setRes n).seen = s.seen := rfl
@[simp] theorem State.setRes_buf : (s.setRes n).buf = s.buf := rfl

@[simp] theorem State.raise_cfg : (s.raise e).cfg = s.cfg := rfl
@[simp] theorem State.raise_res : (s.raise e).res = e.code := rfl
@[simp] theorem State.raise_moves : (s.raise e).moves = s.moves := rfl
@[simp] theorem State.raise_seen : (s.raise e).seen = s.seen := rfl
@[simp] theorem State.raise_buf : (s.raise e).buf = s.buf := rfl

@[simp] theorem State.writeHdr_cfg : (s.writeHdr a fmt n tid).cfg = s.cfg := rfl
@[simp] theorem State.writeHdr_res : (s.writeHdr a fmt n tid).res = s.res := rfl
@[simp] theorem State.writeHdr_moves : (s.writeHdr a fmt n tid).moves = s.moves := rfl
@[simp] theorem State.writeHdr_seen : (s.writeHdr a fmt n tid).seen = s.seen := rfl

@[simp] theorem State.afterReset_cfg : s.afterReset.cfg = s.cfg := rfl
@[simp] theorem State.afterReset_res : s.afterReset.res = 0x00 := rfl
@[simp] theorem State.afterReset_moves : s.afterReset.moves = s.moves := rfl
@[simp] theorem State.afterReset_seen : s.afterReset.seen = s.seen := rfl
@[simp] theorem State.afterReset_buf : s.afterReset.buf = [] := rfl

@[simp] theorem State.withFetchWord_cfg : (s.withFetchWord n v).cfg = s.cfg := rfl
@[simp] theorem State.withFetchWord_buf : (s.withFetchWord n v).buf = s.buf := rfl
@[simp] theorem State.withFetchWord_res : (s.withFetchWord n v).res = s.res := rfl
@[simp] theorem State.withFetchWord_seen : (s.withFetchWord n v).seen = s.seen := rfl
@[simp] theorem State.withFetchWord_moves :
    (s.withFetchWord n v).moves = .issue (tableWord n v) :: s.moves := rfl

end Sys2Proof.Machine
end

