-- ==== Sys2Proof/Laws/Memory.lean ====
section
/-! SUPPORT. The laws of BUF: reading after writing, and that every memory operation keeps the canonical form. -/

namespace Sys2Proof.Machine

/-! ### Reading after writing -/

@[simp] theorem Memory.read_nil (a : Nat) : Memory.read [] a = none := rfl

@[simp] theorem Memory.read_writeByte_self (a : Nat) (v : Byte) (m : Memory) :
    (Memory.writeByte a v m).read a = some v := by
  induction m with
  | nil => simp [Memory.writeByte, Memory.read]
  | cons c m ih =>
    obtain ⟨x, u⟩ := c
    simp only [Memory.writeByte]
    split
    · simp [Memory.read]
    · split
      · simp [Memory.read]
      · have : x ≠ a := fun h => by simp_all
        simp [Memory.read, this, ih]

theorem Memory.read_writeByte_ne {a b : Nat} (h : b ≠ a) (v : Byte) (m : Memory) :
    (Memory.writeByte a v m).read b = m.read b := by
  induction m with
  | nil => simp [Memory.writeByte, Memory.read, h.symm]
  | cons c m ih =>
    obtain ⟨x, u⟩ := c
    simp only [Memory.writeByte]
    split
    · simp [Memory.read, h.symm]
    · split
      · rename_i hx
        subst hx
        simp [Memory.read, h.symm]
      · simp [Memory.read, ih]

theorem Memory.read_applyWrites_outside (vs : List Byte) :
    ∀ (a b : Nat) (m : Memory), b < a ∨ a + vs.length ≤ b →
      (m.applyWrites (portWrites a vs)).read b = m.read b := by
  induction vs with
  | nil => intros; rfl
  | cons v vs ih =>
    intro a b m h
    simp only [List.length_cons] at h
    simp only [portWrites, Memory.applyWrites]
    rw [ih (a + 1) b _ (by omega), Memory.read_writeByte_ne (by omega)]

theorem Memory.read_applyWrites_inside (vs : List Byte) :
    ∀ (a k : Nat) (m : Memory) (h : k < vs.length),
      (m.applyWrites (portWrites a vs)).read (a + k) = some vs[k] := by
  induction vs with
  | nil => intro a k m h; simp at h
  | cons v vs ih =>
    intro a k m h
    simp only [portWrites, Memory.applyWrites]
    cases k with
    | zero =>
      rw [Memory.read_applyWrites_outside vs (a + 1) (a + 0) _ (by omega)]
      simp
    | succ k =>
      have := ih (a + 1) k (Memory.writeByte a v m) (by simpa using h)
      rw [show a + (k + 1) = a + 1 + k by omega, this]
      simp

theorem Memory.applyWrites_append (ws us : List Host.Cell) :
    ∀ m : Memory, m.applyWrites (ws ++ us) = (m.applyWrites ws).applyWrites us := by
  induction ws with
  | nil => intro m; rfl
  | cons w ws ih => intro m; simp [Memory.applyWrites, ih]

theorem portWrites_append (vs us : List Byte) :
    ∀ a, portWrites a (vs ++ us) = portWrites a vs ++ portWrites (a + vs.length) us := by
  induction vs with
  | nil => intro a; rfl
  | cons v vs ih =>
    intro a
    simp [portWrites, ih, show a + 1 + vs.length = a + (vs.length + 1) by omega]

@[simp] theorem leBytes_length (v w : Nat) : (leBytes v w).length = w := by simp [leBytes]

@[simp] theorem leBytes_getElem (v w k : Nat) (h : k < (leBytes v w).length) :
    (leBytes v w)[k] = byteOf v k := by simp [leBytes]

@[simp] theorem leBytes_byte (b : Byte) : leBytes b.toNat 1 = [b] := by
  simp [leBytes, byteOf]

theorem State.writeHdr_buf (a : Nat) (fmt : BitVec 3) (plen : Nat) (tid : Byte) (s : State) :
    (s.writeHdr a fmt plen tid).buf =
      s.buf.applyWrites (portWrites a [hdrByte0 fmt (BitVec.ofNat 5 plen), tid]) := by
  simp [State.writeHdr, portWrites, Memory.applyWrites]

/-! ### The canonical form -/

theorem Memory.above_iff {lo : Nat} {m : Memory} :
    Memory.above lo m = true ↔ ∀ c ∈ m, lo < c.1 := by simp [Memory.above]

theorem Memory.wf_cons {c : Host.Cell} {m : Memory} :
    Memory.wf (c :: m) = true ↔ (∀ d ∈ m, c.1 < d.1) ∧ Memory.wf m = true := by
  simp [Memory.wf, Memory.above]

theorem Memory.mem_writeByte {a : Nat} {v : Byte} {m : Memory} {c : Host.Cell}
    (h : c ∈ Memory.writeByte a v m) : c = (a, v) ∨ c ∈ m := by
  induction m with
  | nil => simpa [Memory.writeByte] using h
  | cons d m ih =>
    obtain ⟨x, u⟩ := d
    simp only [Memory.writeByte] at h
    split at h
    · simpa using h
    · split at h
      · rcases List.mem_cons.1 h with h | h
        · exact .inl h
        · exact .inr (List.mem_cons_of_mem _ h)
      · rcases List.mem_cons.1 h with h | h
        · exact .inr (h ▸ List.mem_cons_self)
        · exact (ih h).imp id (List.mem_cons_of_mem _)

theorem Memory.wf_writeByte (a : Nat) (v : Byte) {m : Memory} (h : Memory.wf m = true) :
    Memory.wf (Memory.writeByte a v m) = true := by
  induction m with
  | nil => rfl
  | cons d m ih =>
    obtain ⟨x, u⟩ := d
    obtain ⟨hx, hm⟩ := Memory.wf_cons.1 h
    simp only [Memory.writeByte]
    split
    · rename_i hlt
      refine Memory.wf_cons.2 ⟨fun c hc => ?_, h⟩
      rcases List.mem_cons.1 hc with rfl | hc
      · exact hlt
      · exact Nat.lt_trans hlt (hx c hc)
    · split
      · rename_i heq
        subst heq
        exact Memory.wf_cons.2 ⟨hx, hm⟩
      · refine Memory.wf_cons.2 ⟨fun c hc => ?_, ih hm⟩
        rcases Memory.mem_writeByte hc with rfl | hc
        · show x < a
          omega
        · exact hx c hc

theorem Memory.wf_applyWrites (ws : List Host.Cell) :
    ∀ {m : Memory}, Memory.wf m = true → Memory.wf (m.applyWrites ws) = true := by
  induction ws with
  | nil => intro m h; exact h
  | cons w ws ih => intro m h; exact ih (Memory.wf_writeByte _ _ h)

theorem Memory.mem_applyWrites (ws : List Host.Cell) :
    ∀ {m : Memory} {c : Host.Cell}, c ∈ m.applyWrites ws → c ∈ ws ∨ c ∈ m := by
  induction ws with
  | nil => intro m c h; exact .inr h
  | cons w ws ih =>
    intro m c h
    rcases ih h with h | h
    · exact .inl (List.mem_cons_of_mem _ h)
    · rcases Memory.mem_writeByte h with h | h
      · exact .inl (h ▸ List.mem_cons_self)
      · exact .inr h

theorem mem_portWrites (vs : List Byte) :
    ∀ {a : Nat} {c : Host.Cell}, c ∈ portWrites a vs → a ≤ c.1 ∧ c.1 < a + vs.length := by
  induction vs with
  | nil => intro a c h; simp [portWrites] at h
  | cons v vs ih =>
    intro a c h
    rcases List.mem_cons.1 h with rfl | h
    · simp
    · have := ih h
      simp only [List.length_cons]
      omega

theorem Memory.read_of_above {lo : Nat} {m : Memory} (h : ∀ c ∈ m, lo < c.1) {a : Nat} (ha : a ≤ lo) :
    m.read a = none := by
  induction m with
  | nil => rfl
  | cons c m ih =>
    obtain ⟨x, u⟩ := c
    have hx : lo < x := h (x, u) List.mem_cons_self
    simp [Memory.read, show x ≠ a by omega, ih fun d hd => h d (List.mem_cons_of_mem _ hd)]

/-- In canonical form, writing the byte a cell already holds changes nothing. -/
theorem Memory.writeByte_of_read {a : Nat} {v : Byte} {m : Memory} (hw : Memory.wf m = true)
    (h : m.read a = some v) : Memory.writeByte a v m = m := by
  induction m with
  | nil => simp at h
  | cons c m ih =>
    obtain ⟨x, u⟩ := c
    obtain ⟨hx, hm⟩ := Memory.wf_cons.1 hw
    simp only [Memory.read] at h
    split at h
    · rename_i heq
      obtain rfl : u = v := by simpa using h
      simp [Memory.writeByte, heq]
    · rename_i hne
      have hlt : x < a := by
        by_contra hge
        rw [Memory.read_of_above hx (by omega)] at h
        simp at h
      simp [Memory.writeByte, show ¬ a < x by omega, show ¬ a = x by omega, ih hm h]

/-- In canonical form, writing bytes that are already there changes nothing. -/
theorem Memory.applyWrites_of_read (vs : List Byte) :
    ∀ {a : Nat} {m : Memory}, Memory.wf m = true →
      (∀ (k : Nat) (h : k < vs.length), m.read (a + k) = some vs[k]) →
      m.applyWrites (portWrites a vs) = m := by
  induction vs with
  | nil => intros; rfl
  | cons v vs ih =>
    intro a m hw h
    have h0 : Memory.writeByte a v m = m :=
      Memory.writeByte_of_read hw (h 0 (Nat.succ_pos _))
    simp only [portWrites, Memory.applyWrites, h0]
    refine ih hw fun k hk => ?_
    have := h (k + 1) (by simpa using hk)
    rw [show a + 1 + k = a + (k + 1) by omega, this]
    simp

theorem State.memWrite_wf (a n v : Nat) {s : State} (h : Memory.wf s.buf = true) :
    Memory.wf (s.memWrite a n v).buf = true := Memory.wf_applyWrites _ h

theorem State.writeHdr_wf (a : Nat) (fmt : BitVec 3) (plen : Nat) (tid : Byte) {s : State}
    (h : Memory.wf s.buf = true) : Memory.wf (s.writeHdr a fmt plen tid).buf = true :=
  State.memWrite_wf _ _ _ (State.memWrite_wf _ _ _ h)

theorem State.afterReset_wf (s : State) : Memory.wf s.afterReset.buf = true := rfl

theorem reset_buf_wf (P : Config) : Memory.wf (State.resetOf P).buf = true := rfl

end Sys2Proof.Machine
end

