-- ==== Sys2Proof/Laws/Ops.lean ====
section
/-! SUPPORT. What each shared operation answers, once: the window checks, the scalar writer, the header writer
and the field encoder, case by case; the range check of a conversion. -/

namespace Sys2Proof.Machine

/-! ### Checks -/

@[simp] theorem capIllegal_iff (cap : Nat) (s : State) : capIllegal cap s = true ↔ s.cfg.bufSize < cap := by
  simp [capIllegal]

@[simp] theorem windowShort_iff (off n cap : Nat) : windowShort off n cap = true ↔ cap < off + n := by
  simp [windowShort]

theorem inRange_eq_some {n lo hi m : Int} : inRange n lo hi = some m ↔ n = m ∧ lo ≤ n ∧ n ≤ hi := by
  unfold inRange
  split
  · simp; omega
  · simp; omega

theorem inRange_eq_none {n lo hi : Int} : inRange n lo hi = none ↔ n < lo ∨ hi < n := by
  unfold inRange
  split
  · simp; omega
  · simp; omega

/-- A conversion answers exactly the scaled values in range (42_fixed_point_conversion.md R105). -/
theorem convert_eq_some {val : BitVec 32} {S : Nat} {lo hi n : Int} :
    convert val S lo hi = some n ↔ scaleTrunc val S = some n ∧ lo ≤ n ∧ n ≤ hi := by
  unfold convert
  cases h : scaleTrunc val S with
  | none => simp
  | some m =>
    simp only [inRange_eq_some, Option.some.injEq]
    constructor
    · rintro ⟨rfl, h₁⟩
      exact ⟨rfl, h₁⟩
    · rintro ⟨rfl, h₁⟩
      exact ⟨rfl, h₁⟩

theorem convertU32_eq_some {val : BitVec 32} {n : Int} :
    convertU32 val = some n ↔ (val.toNat : Int) = n ∧ n ≤ 255 := by
  unfold convertU32
  rw [inRange_eq_some]
  omega

theorem tc_lt (N : Nat) (n : Int) : tc N n < 2 ^ N := by
  have h : (0 : Int) < 2 ^ N := by positivity
  have h₁ := Int.emod_nonneg n (ne_of_gt h)
  have h₂ := Int.emod_lt_of_pos n h
  unfold tc
  zify
  rw [Int.toNat_of_nonneg h₁]
  exact h₂

theorem tc_cast (N : Nat) (n : Int) : (tc N n : Int) = n % 2 ^ N :=
  Int.toNat_of_nonneg (Int.emod_nonneg n (by positivity))

/-! ### The scalar writer (41_scalar_writer.md R90 to R94) -/

variable {w off cap : Nat} {val : BitVec 32} {s : State}

theorem writeScalar_illegal (h : s.cfg.bufSize < cap) :
    writeScalar w off cap val s = .next { s with res := 0xFD } := by
  simp [writeScalar, h]
  rfl

theorem writeScalar_short (h : cap ≤ s.cfg.bufSize) (hw : cap < off + w) :
    writeScalar w off cap val s = .next { s with res := 0xFF } := by
  simp [writeScalar, show ¬ s.cfg.bufSize < cap by omega, hw]
  rfl

theorem writeScalar_ok (h : cap ≤ s.cfg.bufSize) (hw : off + w ≤ cap) :
    writeScalar w off cap val s =
      .next { s with buf := s.buf.applyWrites (portWrites off (leBytes (rawOperand w val) w)), res := countCode w } := by
  simp [writeScalar, show ¬ s.cfg.bufSize < cap by omega, show ¬ cap < off + w by omega]
  rfl

/-! ### The header writer (40_header_writer.md R81) -/

variable {sgn : Bool} {dlen : Nat} {tid : Byte}

theorem execWrHdr_illegal (h : s.cfg.bufSize < cap ∨ dlen < 1 ∨ 3 < dlen) :
    execWrHdr off cap sgn dlen tid s = .next { s with res := 0xFD } := by
  unfold execWrHdr
  by_cases h₁ : s.cfg.bufSize < cap
  · simp [h₁]
    rfl
  · have h₂ : dlen < 1 ∨ dlen > 3 := by omega
    rw [if_neg (by simpa using h₁), if_pos h₂]
    rfl

theorem execWrHdr_short (h : cap ≤ s.cfg.bufSize) (h₁ : 1 ≤ dlen) (h₃ : dlen ≤ 3) (hw : cap < off + 2) :
    execWrHdr off cap sgn dlen tid s = .next { s with res := 0xFF } := by
  unfold execWrHdr
  rw [if_neg (by simpa using h), if_neg (by omega), if_pos (by simpa using hw)]
  rfl

theorem execWrHdr_ok (h : cap ≤ s.cfg.bufSize) (h₁ : 1 ≤ dlen) (h₃ : dlen ≤ 3) (hw : off + 2 ≤ cap) :
    execWrHdr off cap sgn dlen tid s =
      .next { s with
        buf := s.buf.applyWrites
          (portWrites off [hdrByte0 (formatOf s.cfg sgn) (BitVec.ofNat 5 (dlen + 1)), tid])
        res := 0x02 } := by
  unfold execWrHdr
  rw [if_neg (by simpa using h), if_neg (by omega), if_neg (by simpa using hw)]
  simp only [State.setRes, State.writeHdr_buf]
  rfl

/-! ### The field encoder (43_field_encoders.md R121) -/

/-- The bytes of a field, as the encoder forms them. -/
def encodedBytes (fmt : BitVec 3) (tid : Byte) (w : Nat) (n : Int) : List Byte :=
  hdrByte0 fmt (BitVec.ofNat 5 (w + 1)) :: tid :: leBytes (tc (8 * w) n) w

@[simp] theorem encodedBytes_length (fmt : BitVec 3) (tid : Byte) (w : Nat) (n : Int) :
    (encodedBytes fmt tid w n).length = 2 + w := by
  simp [encodedBytes]
  omega

variable {fmt : BitVec 3} {conv : Option Int} {n : Int}

theorem encodeField_illegal (h : s.cfg.bufSize < cap) :
    encodeField fmt tid w off cap conv s = .next { s with res := 0xFD } := by
  simp [encodeField, h]
  rfl

theorem encodeField_range (h : cap ≤ s.cfg.bufSize) :
    encodeField fmt tid w off cap none s = .next { s with res := 0xFE } := by
  simp [encodeField, show ¬ s.cfg.bufSize < cap by omega]
  rfl

theorem encodeField_short (h : cap ≤ s.cfg.bufSize) (hw : cap < off + (2 + w)) :
    encodeField fmt tid w off cap (some n) s = .next { s with res := 0xFF } := by
  simp [encodeField, show ¬ s.cfg.bufSize < cap by omega, hw]
  rfl

theorem encodeField_ok (h : cap ≤ s.cfg.bufSize) (hw : off + (2 + w) ≤ cap) :
    encodeField fmt tid w off cap (some n) s =
      .next { s with
        buf := s.buf.applyWrites (portWrites off (encodedBytes fmt tid w n))
        res := countCode (2 + w) } := by
  unfold encodeField
  rw [if_neg (by simpa using h)]
  simp only
  rw [if_neg (by simpa using hw)]
  simp only [State.setRes, State.memWrite, State.writeHdr_buf]
  have : portWrites off (encodedBytes fmt tid w n) =
      portWrites off [hdrByte0 fmt (BitVec.ofNat 5 (w + 1)), tid] ++
        portWrites (off + 2) (leBytes (tc (8 * w) n) w) :=
    portWrites_append [hdrByte0 fmt (BitVec.ofNat 5 (w + 1)), tid] (leBytes (tc (8 * w) n) w) off
  rw [this, Memory.applyWrites_append]
  rfl

end Sys2Proof.Machine
end

