-- ==== Sys2Proof/Laws/PerInstr.lean ====
section
/-! SUPPORT. The per-instruction family `Fields`: the word of a well-formed command carries its OP, OFF, CAP and
VAL in the places of 30_encoding.md R61. -/

namespace Sys2Proof.Laws.Fields

/-- The four fields of a command's word are the command's. -/
def Statement (i : Instr) : Prop :=
  i.wellFormed = true →
    opField (encode i) = i.op ∧ offField (encode i) = i.off ∧ capField (encode i) = i.cap ∧
      valField (encode i) = i.val

theorem of_bounds (i : Instr) (ho : i.wellFormed = true → i.off < 4096)
    (hc : i.wellFormed = true → i.cap < 4096) : Statement i := fun h =>
  ⟨opField_packWord .., offField_packWord _ _ _ _ (ho h), capField_packWord _ _ _ _ (hc h),
    valField_packWord ..⟩

theorem wrHdr (off cap : Nat) (sgn : Bool) (dlen : Nat) (tid : Byte) :
    Statement (.wrHdr off cap sgn dlen tid) := by
  apply of_bounds <;> simp [Instr.wellFormed, Instr.off, Instr.cap] <;> omega

theorem wrLe1 (off cap : Nat) (val : BitVec 32) : Statement (.wrLe1 off cap val) :=
  of_bounds _ (by simp [Instr.wellFormed, Instr.off]; omega) (by simp [Instr.wellFormed, Instr.cap])

theorem wrLe2 (off cap : Nat) (val : BitVec 32) : Statement (.wrLe2 off cap val) :=
  of_bounds _ (by simp [Instr.wellFormed, Instr.off]; omega) (by simp [Instr.wellFormed, Instr.cap])

theorem wrLe3 (off cap : Nat) (val : BitVec 32) : Statement (.wrLe3 off cap val) :=
  of_bounds _ (by simp [Instr.wellFormed, Instr.off]; omega) (by simp [Instr.wellFormed, Instr.cap])

theorem encPacketId (off cap : Nat) (val : BitVec 32) : Statement (.encPacketId off cap val) :=
  of_bounds _ (by simp [Instr.wellFormed, Instr.off]; omega) (by simp [Instr.wellFormed, Instr.cap])

theorem encTemperature (off cap : Nat) (val : BitVec 32) : Statement (.encTemperature off cap val) :=
  of_bounds _ (by simp [Instr.wellFormed, Instr.off]; omega) (by simp [Instr.wellFormed, Instr.cap])

theorem encHumidity (off cap : Nat) (val : BitVec 32) : Statement (.encHumidity off cap val) :=
  of_bounds _ (by simp [Instr.wellFormed, Instr.off]; omega) (by simp [Instr.wellFormed, Instr.cap])

theorem encBattery (off cap : Nat) (val : BitVec 32) : Statement (.encBattery off cap val) :=
  of_bounds _ (by simp [Instr.wellFormed, Instr.off]; omega) (by simp [Instr.wellFormed, Instr.cap])

theorem encPressure (off cap : Nat) (val : BitVec 32) : Statement (.encPressure off cap val) :=
  of_bounds _ (by simp [Instr.wellFormed, Instr.off]; omega) (by simp [Instr.wellFormed, Instr.cap])

end Sys2Proof.Laws.Fields
end

