-- ==== Sys2Proof/Tests/Slice0.lean ====
section
/-! SUPPORT. The model's own tests: decoding of words written out bit by bit, ill-formed commands, one step of each
command on a vector of 95_test_vectors.md, and a witness for the hypotheses of each statement. -/

namespace Sys2Proof.Tests

open Sys2Proof.Machine

/-! ### Decoding: the words below are written bit by bit from the `encoding` strings of the opcode table -/

/-- WR_HDR: OP, OFF 5, CAP 31, fifteen zeros, SGN 1, DLEN 3, TID 0x7E. -/
theorem test_decode_wrHdr :
    decode 0b0001000000000000010100000001111100000000000000010000001101111110 =
      .command (.wrHdr 5 31 true 3 0x7E) := by decide

/-- WR_LE1: OP, OFF 255, CAP 256, VAL 0xDEADBE07. -/
theorem test_decode_wrLe1 :
    decode 0b0001000100001111111100010000000011011110101011011011111000000111 =
      .command (.wrLe1 255 256 0xDEADBE07) := by decide

/-- WR_LE2: OP, OFF 2, CAP 31, VAL 0xFFFFF79A. -/
theorem test_decode_wrLe2 :
    decode 0b0001001000000000001000000001111111111111111111111111011110011010 =
      .command (.wrLe2 2 31 0xFFFFF79A) := by decide

/-- WR_LE3: OP, OFF 4095, CAP 4095, VAL 0x00018BCD. -/
theorem test_decode_wrLe3 :
    decode 0b0001001111111111111111111111111100000000000000011000101111001101 =
      .command (.wrLe3 4095 4095 0x00018BCD) := by decide

/-- ENC_PACKET_ID: OP, OFF 7, CAP 10, VAL 7. -/
theorem test_decode_encPacketId :
    decode 0b0010000000000000011100000000101000000000000000000000000000000111 =
      .command (.encPacketId 7 10 7) := by decide

/-- ENC_TEMPERATURE: OP, OFF 3, CAP 31, VAL: s 0, e 131, f 0x2C0000. -/
theorem test_decode_encTemperature :
    decode 0b0010000100000000001100000001111101000001101011000000000000000000 =
      .command (.encTemperature 3 31 0x41AC0000) := by decide

/-- ENC_HUMIDITY: OP, OFF 7, CAP 31, VAL: s 0, e 132, f 0x5D0000. -/
theorem test_decode_encHumidity :
    decode 0b0010001000000000011100000001111101000010010111010000000000000000 =
      .command (.encHumidity 7 31 0x425D0000) := by decide

/-- ENC_BATTERY: OP, OFF 16, CAP 31, VAL: s 0, e 133, f 0x2E0000. -/
theorem test_decode_encBattery :
    decode 0b0010001100000001000000000001111101000010101011100000000000000000 =
      .command (.encBattery 16 31 0x42AE0000) := by decide

/-- ENC_PRESSURE: OP, OFF 251, CAP 256, VAL: s 0, e 136, f 0x7D5000. -/
theorem test_decode_encPressure :
    decode 0b0010010000001111101100010000000001000100011111010101000000000000 =
      .command (.encPressure 251 256 0x447D5000) := by decide

/-- 95_test_vectors.md HD9: reserved bit 17 of a WR_HDR. -/
theorem test_decode_reserved : decode 0x1000001F00020202 = .illegal .reservedBits := by decide

/-- 95_test_vectors.md Q5, Q9: the OP just above WR_LE3, and all ones. -/
theorem test_decode_illegal :
    decode 0x1400001F00000000 = .illegal (.opcode 0x14) ∧
      decode 0xFFFFFFFFFFFFFFFF = .illegal (.opcode 0xFF) := by decide

/-- 30_encoding.md R66: "Printed in hexadecimal, VAL reads 000S LL TT". -/
theorem test_hdrVal : hdrVal true 2 0x02 = 0x00010202 := by decide

theorem test_decodeTableWord : decodeTableWord 64 0x1200201F0000FDF3 = some (.wrLe2 2 31 0xFDF3) := by decide

/-! ### Ill-formed commands: one for each check of each field -/

theorem test_off_too_wide :
    [(Instr.wrHdr 4096 31 true 2 2).wellFormed, (Instr.wrLe1 4096 31 0).wellFormed,
      (Instr.wrLe2 4096 31 0).wellFormed, (Instr.wrLe3 4096 31 0).wellFormed,
      (Instr.encPacketId 4096 31 0).wellFormed, (Instr.encTemperature 4096 31 0).wellFormed,
      (Instr.encHumidity 4096 31 0).wellFormed, (Instr.encBattery 4096 31 0).wellFormed,
      (Instr.encPressure 4096 31 0).wellFormed].all (· == false) = true := by decide

theorem test_cap_too_wide :
    [(Instr.wrHdr 0 4096 true 2 2).wellFormed, (Instr.wrLe1 0 4096 0).wellFormed,
      (Instr.wrLe2 0 4096 0).wellFormed, (Instr.wrLe3 0 4096 0).wellFormed,
      (Instr.encPacketId 0 4096 0).wellFormed, (Instr.encTemperature 0 4096 0).wellFormed,
      (Instr.encHumidity 0 4096 0).wellFormed, (Instr.encBattery 0 4096 0).wellFormed,
      (Instr.encPressure 0 4096 0).wellFormed].all (· == false) = true := by decide

theorem test_dlen_too_wide : (Instr.wrHdr 0 31 true 256 2).wellFormed = false := by decide

/-! ### One step from reset, on vectors of 95_test_vectors.md -/

/-- The next state of an answer, if it is one. -/
def nextOf : Host.Outcome State Fault Refusal → Option State
  | .next t => some t
  | .fault _ => none
  | .refused _ => none

/-- The fault of an answer, if it is one. -/
def faultOf : Host.Outcome State Fault Refusal → Option Fault
  | .next _ => none
  | .fault f => some f
  | .refused _ => none

/-- RES and BUF after issuing one word to a block just reset. -/
def answer (c : Nat) : Option (Byte × Memory) :=
  (nextOf (step (State.reset.withFetchWord 64 c))).map fun t => (t.res, t.buf)

/-- HD5. -/
theorem test_wrHdr : answer 0x1000001F0001037E = some (0x02, [(0, 0x24), (1, 0x7E)]) := by decide
/-- HD11. -/
theorem test_wrHdr_short : answer 0x1001E01F00010202 = some (0xFF, []) := by decide
/-- L2. -/
theorem test_wrLe1 : answer 0x1100001FDEADBE07 = some (0x01, [(0, 0x07)]) := by decide
/-- L13. -/
theorem test_wrLe1_top : answer 0x110FF100000000A5 = some (0x01, [(255, 0xA5)]) := by decide
/-- L4. -/
theorem test_wrLe2 : answer 0x1200201FFFFFF79A = some (0x02, [(2, 0x9A), (3, 0xF7)]) := by decide
/-- L14. -/
theorem test_wrLe2_cap : answer 0x1200010100000866 = some (0xFD, []) := by decide
/-- L6. -/
theorem test_wrLe3 : answer 0x1300201FAA018BCD = some (0x03, [(2, 0xCD), (3, 0x8B), (4, 0x01)]) := by decide
/-- L9. -/
theorem test_wrLe3_short : answer 0x1301D01F00018BCD = some (0xFF, []) := by decide
/-- I3. -/
theorem test_encPacketId : answer 0x2000001F000000FF = some (0x03, [(0, 0x02), (1, 0x00), (2, 0xFF)]) := by decide
/-- I4. -/
theorem test_encPacketId_range : answer 0x2000001F00000100 = some (0xFE, []) := by decide
/-- T11: 0.29 gives 28, not 29. -/
theorem test_encTemperature :
    answer 0x2100001F3E947AE1 = some (0x04, [(0, 0x23), (1, 0x02), (2, 0x1C), (3, 0x00)]) := by decide
/-- T18: the most negative accepted pattern. -/
theorem test_encTemperature_negative :
    answer 0x2100001FC3A3D851 = some (0x04, [(0, 0x23), (1, 0x02), (2, 0x00), (3, 0x80)]) := by decide
/-- H6. -/
theorem test_encHumidity :
    answer 0x2200001F4423D70A = some (0x04, [(0, 0x03), (1, 0x03), (2, 0xFF), (3, 0xFF)]) := by decide
/-- H10. -/
theorem test_encHumidity_range : answer 0x2200001FBCA3D70A = some (0xFE, []) := by decide
/-- B2: the fraction is dropped. -/
theorem test_encBattery :
    answer 0x2300001F42AFCCCD = some (0x04, [(0, 0x03), (1, 0x01), (2, 0x57), (3, 0x00)]) := by decide
/-- B9. -/
theorem test_encBattery_range : answer 0x2300001FBF800000 = some (0xFE, []) := by decide
/-- K6. -/
theorem test_encPressure :
    answer 0x240FB100447D5000 =
      some (0x05, [(251, 0x04), (252, 0x04), (253, 0xCD), (254, 0x8B), (255, 0x01)]) := by decide
/-- PR7. -/
theorem test_encPressure_range : answer 0x2400001F4823D70B = some (0xFE, []) := by decide
/-- Q3 and Q1: ERR_CMD before ERR_CAP, ERR_RANGE before ERR_CAP. -/
theorem test_priority :
    answer 0x2119012C3F800000 = some (0xFD, []) ∧ answer 0x2101E01F43C80000 = some (0xFE, []) := by decide
/-- Q4 and HD10: words that are no command. -/
theorem test_illegal_words :
    answer 0x0000001F00000000 = some (0xFD, []) ∧ answer 0x1000001F80010202 = some (0xFD, []) := by decide

/-! ### The host's moves -/

/-- A block that holds one byte and has answered one command. -/
def small : State := { State.reset with buf := [(5, 0xEE)], res := 0x01 }

/-- 10_state.md R29, 93_implementation_defined.md U7: a byte without value is a fault. -/
theorem test_read_unwritten :
    faultOf (step { small with moves := [.readBuf 4] }) = some (.unwrittenByte 4) ∧
      faultOf (step { small with moves := [.readBuf 256] }) = some (.noSuchByte 256) := by decide

/-- 10_state.md R21: RES and a written byte are read as they stand. -/
theorem test_reads :
    (nextOf (step { small with moves := [.readRes] })).map (·.seen) = some [.res 0x01] ∧
      (nextOf (step { small with moves := [.readBuf 5] })).map (·.seen) = some [.buf 5 0xEE] := by decide

/-- 70_reset_and_hazards.md R170. -/
theorem test_reset_move :
    nextOf (step { small with moves := [.reset (some 0x1100001F00000007)] }) = some State.reset := by decide

/-- 20_memory.md R49: a later write wins, and the list stays in canonical form. -/
theorem test_overwrite :
    (nextOf (exec (.wrLe2 4 31 0x0866) small)).map (·.buf) = some [(4, 0x66), (5, 0x08)] := by decide

/-- The per-instruction family is about the words of well-formed commands. -/
theorem test_fields_witness :
    (Instr.wrHdr 4095 4095 true 255 0xFF).wellFormed = true ∧ (Instr.encPressure 251 256 0).wellFormed = true := by
  decide

/-! ### Witnesses: a state and operands that meet the hypotheses of each statement -/

theorem witness_DecodeEncodeRoundTrip :
    [Instr.wrHdr 4095 4095 true 255 0xFF, .wrLe1 4095 0 0, .wrLe2 0 4095 1, .wrLe3 2 31 2, .encPacketId 0 31 7,
      .encTemperature 3 31 0, .encHumidity 7 31 0, .encBattery 16 31 0, .encPressure 251 256 0].all
        Instr.wellFormed = true := by decide

theorem witness_EncodeDecodeRoundTrip : decode 0x10FFFFFF0001FFFF = .command (.wrHdr 4095 4095 true 255 0xFF) := by
  decide

/-- A word for each clause: an illegal OP, a reserved bit, a command, a command with CAP one above BUF_SIZE. -/
theorem witness_DecodeFollowsOpcodeMap :
    opField 0x0F00001F00000000 = 0x0F ∧
      (opField 0x1000001F00020202 = 0x10 ∧ (0x1000001F00020202 : Word).extractLsb' 17 15 ≠ 0) ∧
      (opField 0x1000001F00010202 = 0x10 ∧ (0x1000001F00010202 : Word).extractLsb' 17 15 = 0) ∧
      decode 0x0F00001F00000000 = .illegal (.opcode 0x0F) ∧
      (decode 0x1100010100000007 = .command (.wrLe1 0 257 7) ∧ (Instr.wrLe1 0 257 7).cap > small.cfg.bufSize) := by
  decide

theorem witness_OpcodeRowsDisjoint :
    opcodeTable.map (fun r => r.admits r.pattern) = List.replicate 9 true := by decide

/-- The ends of the three ranges of illegal OP values. -/
theorem witness_IllegalOpcodeReportsErrCmd :
    (IllegalOp 0x00 ∧ IllegalOp 0x0F ∧ IllegalOp 0x14 ∧ IllegalOp 0x1F ∧ IllegalOp 0x25 ∧ IllegalOp 0xFF) ∧
      ((0x25FFFFFFFFFFFFFF : Word).extractLsb' 56 8).toNat = 0x25 := by
  simp only [IllegalOp]
  decide

theorem witness_IllegalOperandsReportErrCmd :
    ((0x1000001F80010202 : Word).extractLsb' 56 8 = 0x10 ∧ (0x1000001F80010202 : Word).extractLsb' 17 15 ≠ 0) ∧
      (4 ≤ 255) ∧ (Instr.encPressure 0 257 0x447D5000).cap > small.cfg.bufSize ∧
      (0x24FFFFFFFFFFFFFF : Word).extractLsb' 56 8 = 0x24 ∧
      ((0x10FFFFFF0001FFFF : Word).extractLsb' 56 8 = 0x10 ∧ (0x10FFFFFF0001FFFF : Word).extractLsb' 17 15 = 0) := by
  decide

theorem witness_StepRunsDecodedCommand :
    decode 0x1100001F00000007 = .command (.wrLe1 0 31 7) ∧ (Instr.wrLe1 0 31 7).wellFormed = true ∧
      encode (.wrLe1 0 31 7) = 0x1100001F00000007 ∧
      ({ small with moves := [.issue 0x1100001F00000007, .readRes] } : State).moves =
        .issue 0x1100001F00000007 :: [.readRes] := by decide

theorem witness_IdleStepChangesNothing : small.moves = [] := by decide

/-- The reads of `test_reads` and `test_read_unwritten`, at the last byte of BUF and just above it too. -/
theorem witness_HostMovesAnswer :
    ({ small with moves := [.reset none, .readRes] } : State).moves = .reset none :: [.readRes] ∧
      ({ small with moves := [.readBuf 5] } : State).moves = .readBuf 5 :: [] ∧
      ({ small with moves := [.readRes] } : State).moves = .readRes :: [] ∧ small.buf.read 5 = some 0xEE ∧
      5 < small.cfg.bufSize ∧ small.buf.read 255 = none ∧ 255 < small.cfg.bufSize ∧
      small.cfg.bufSize ≤ 256 := by decide

theorem witness_ResetLeavesResZeroAndBufWithoutValue : 255 < small.cfg.bufSize := by decide

theorem witness_StepKeepsParameters :
    nextOf (step { small with moves := [.reset none] }) = some State.reset := by decide

theorem witness_StepKeepsInvariant :
    small.Inv ∧ (nextOf (step { small with moves := [.issue 0x1100501F00000007] })).isSome = true := by
  refine ⟨⟨by decide, by decide, by decide, by decide⟩, by decide⟩

theorem witness_ResetMeetsInvariant :
    Config.default.Valid ∧ ({ Config.default with bufSize := 4095, fmtSigned := 7 } : Config).Valid ∧
      ({ Config.default with bufSize := 1 } : Config).Valid := by decide

/-- The first and the last byte of three (95_test_vectors.md L6). -/
theorem witness_MemWriteIsLittleEndian :
    (0 < 3 ∧ (small.memWrite 2 3 0x018BCD).buf.read 2 = some 0xCD) ∧
      (2 < 3 ∧ (small.memWrite 2 3 0x018BCD).buf.read 4 = some 0x01) := by decide

/-- A header written by WR_HDR and one written by a field encoder. -/
theorem witness_HeaderBytesLayout :
    ((nextOf (exec (.wrHdr 254 256 true 3 0x7E) small)).map fun t => resFailed t.res) = some false ∧
      ((nextOf (exec (Field.pressure.command 251 256 0x447D5000) small)).map fun t => resFailed t.res) =
        some false := by decide

theorem witness_WrHdrCompletes : (256 ≤ small.cfg.bufSize) ∧ (1 ≤ 3 ∧ 3 ≤ 3) ∧ (254 + 2 ≤ 256) := by decide

theorem witness_WrLe1Completes : (256 ≤ small.cfg.bufSize) ∧ (255 + 1 ≤ 256) := by decide

theorem witness_WrLe2Completes : (256 ≤ small.cfg.bufSize) ∧ (254 + 2 ≤ 256) := by decide

theorem witness_WrLe3Completes : (256 ≤ small.cfg.bufSize) ∧ (253 + 3 ≤ 256) := by decide

theorem witness_EncPacketIdCompletes :
    (256 ≤ small.cfg.bufSize) ∧ (0xFF : BitVec 32).toNat ≤ 255 ∧ (253 + 3 ≤ 256) := by decide

theorem witness_EncTemperatureCompletes :
    (256 ≤ small.cfg.bufSize) ∧ scaleTrunc 0xC3A3D851 100 = some (-32768) ∧
      scaleTrunc 0x43A3D70A 100 = some 32767 ∧ (252 + 4 ≤ 256) := by decide

theorem witness_EncHumidityCompletes :
    (256 ≤ small.cfg.bufSize) ∧ scaleTrunc 0x4423D70A 100 = some ((65535 : Nat) : Int) ∧
      scaleTrunc 0xBC23D70A 100 = some ((0 : Nat) : Int) ∧ (252 + 4 ≤ 256) := by decide

theorem witness_EncBatteryCompletes :
    (256 ≤ small.cfg.bufSize) ∧ scaleTrunc 0x477FFFFF 1 = some ((65535 : Nat) : Int) ∧ (252 + 4 ≤ 256) := by decide

theorem witness_EncPressureCompletes :
    (256 ≤ small.cfg.bufSize) ∧ scaleTrunc 0x4823D70A 100 = some ((16777215 : Nat) : Int) ∧ (251 + 5 ≤ 256) := by
  decide

theorem witness_RawUpperBitsIgnored :
    (3, Instr.wrLe3) ∈ scalarWriters ∧ (2, Instr.wrLe2) ∈ scalarWriters ∧ (1, Instr.wrLe1) ∈ scalarWriters ∧
      (0xAA018BCD : BitVec 32).extractLsb' 0 (8 * 3) = (0x00018BCD : BitVec 32).extractLsb' 0 (8 * 3) ∧
      ((nextOf (exec (.wrLe3 253 256 0xAA018BCD) small)).map fun t => resFailed t.res) = some false := by
  refine ⟨by simp [scalarWriters], by simp [scalarWriters], by simp [scalarWriters], by decide, by decide⟩

theorem witness_ScalarWritesWidthOrNothing : (2, Instr.wrLe2) ∈ scalarWriters := by simp [scalarWriters]

theorem witness_ScalarReadBack :
    (3, Instr.wrLe3) ∈ scalarWriters ∧ 256 ≤ small.cfg.bufSize ∧ 253 + 3 ≤ 256 :=
  ⟨by simp [scalarWriters], by decide, by decide⟩

/-- 255 is the greatest packet id accepted. -/
theorem accepts_packetId : Field.packetId.Accepts 0xFF 255 := ⟨by decide, by decide, by decide⟩

theorem accepts_temperature : Field.temperature.Accepts 0xC3A3D851 (-32768) := ⟨by decide, by decide, by decide⟩

theorem accepts_humidity : Field.humidity.Accepts 0x4423D70A 65535 := ⟨by decide, by decide, by decide⟩

theorem accepts_battery : Field.battery.Accepts 0x477FFFFF 65535 := ⟨by decide, by decide, by decide⟩

theorem accepts_pressure : Field.pressure.Accepts 0x4823D70A 16777215 := ⟨by decide, by decide, by decide⟩

/-- The next pattern up is out of range (95_test_vectors.md PR7). -/
theorem rejects_pressure : ¬ ∃ n, Field.pressure.Accepts 0x4823D70B n := by
  rintro ⟨n, h, _, hn⟩
  have h' : some (16777217 : Int) = some n := h
  cases h'
  exact absurd hn (by decide)

/-- The four clauses: CAP above BUF_SIZE, out of range, one byte short, exact fit at the top of BUF. -/
theorem witness_FieldEncodersFollowEncodeField :
    257 > small.cfg.bufSize ∧ 256 ≤ small.cfg.bufSize ∧ (¬ ∃ n, Field.pressure.Accepts 0x4823D70B n) ∧
      Field.pressure.Accepts 0x4823D70A 16777215 ∧ 252 + 2 + Field.pressure.width > 256 ∧
      251 + 2 + Field.pressure.width ≤ 256 :=
  ⟨by decide, by decide, rejects_pressure, accepts_pressure, by decide, by decide⟩

theorem witness_HeaderRoundTrip :
    small.cfg.Valid ∧
      ((nextOf (exec (.wrHdr 29 31 true 3 0x7E) small)).map fun t => resFailed t.res) = some false ∧
      ((nextOf (exec (Field.temperature.command 27 31 0x41AC0000) small)).map fun t => resFailed t.res) =
        some false := by decide

theorem witness_CountIsDeclaredLengthPlusOne :
    ((nextOf (exec (Field.pressure.command 26 31 0x447D5000) small)).map fun t => (t.res, resFailed t.res)) =
      some (0x05, false) := by decide

/-- Both clauses: room for the whole field, and room for the header only. -/
theorem witness_EncoderEqualsItsPrimitives :
    (Field.pressure.width, Instr.wrLe3) ∈ scalarWriters ∧ Field.pressure.Accepts 0x4823D70A 16777215 ∧
      256 ≤ small.cfg.bufSize ∧ (251 + 2 ≤ 256 ∧ 251 + 2 + Field.pressure.width ≤ 256) ∧
      (252 + 2 ≤ 256 ∧ 256 < 252 + 2 + Field.pressure.width) :=
  ⟨by simp [scalarWriters, Field.width], accepts_pressure, by decide, by decide, by decide⟩

theorem witness_BoundaryOfTheWindow :
    Field.temperature.Accepts 0xC3A3D851 (-32768) ∧ 31 ≤ small.cfg.bufSize ∧
      31 = 27 + need (Field.temperature.command 27 31 0xC3A3D851) ∧
      31 + 1 = 28 + need (Field.temperature.command 28 31 0xC3A3D851) :=
  ⟨accepts_temperature, by decide, by decide, by decide⟩

/-- A success followed at once, and a failure followed at the same offset. -/
theorem witness_PackingKeepsEarlierFields :
    ((nextOf (exec (.encPacketId 0 10 7) small)).map fun t => (nextOffset 0 t.res, resFailed t.res)) =
        some (3, false) ∧
      ((nextOf (exec (.encHumidity 7 10 0x425D0000) small)).map fun t => (nextOffset 7 t.res, resFailed t.res)) =
        some (7, true) := by decide

theorem witness_PacketIdIsNeverReduced :
    10 ≤ small.cfg.bufSize ∧ 256 ≤ (0x100 : BitVec 32).toNat ∧ (0xFF : BitVec 32).toNat ≤ 255 ∧ 7 + 3 ≤ 10 := by
  decide

theorem witness_TwosComplementPattern :
    (1 ≤ 2 ∧ -(2 ^ (8 * 2 - 1) : Int) ≤ -32768 ∧ (-32768 : Int) < 2 ^ (8 * 2)) ∧
      (1 ≤ 3 ∧ -(2 ^ (8 * 3 - 1) : Int) ≤ 16777215 ∧ (16777215 : Int) < 2 ^ (8 * 3)) := by decide

/-- 21.5 is the value of 0x41AC0000 (42_fixed_point_conversion.md R103). -/
theorem valueOf_example : valueOf 0x41AC0000 = some (43 / 2) := by
  simp only [valueOf, show f32Exp 0x41AC0000 = 131 from rfl, show f32Frac 0x41AC0000 = 0x2C0000 from rfl,
    show f32Sign 0x41AC0000 = false by decide]
  norm_num

/-- -0.5 is the value of 0xBF000000 (95_test_vectors.md B8). -/
theorem valueOf_negative : valueOf 0xBF000000 = some (-1 / 2) := by
  simp only [valueOf, show f32Exp 0xBF000000 = 126 from rfl, show f32Frac 0xBF000000 = 0 from rfl,
    show f32Sign 0xBF000000 = true by decide]
  norm_num

/-- Battery -0.5: the product with the scale 1 is below one in magnitude. -/
theorem witness_SmallReadingsGiveZero :
    Field.battery ≠ .packetId ∧ valueOf 0xBF000000 = some (-1 / 2) ∧
      |(-1 / 2 : ℚ) * (Field.battery.scale : ℚ)| < 1 ∧ 31 ≤ small.cfg.bufSize ∧
      27 + 2 + Field.battery.width ≤ 31 := by
  refine ⟨by decide, valueOf_negative, ?_, by decide, by decide⟩
  norm_num [Field.scale, abs_div]

theorem witness_NotFiniteReportsErrRange :
    (0x7F800001 : BitVec 32).extractLsb' 23 8 = 255 ∧ (0xFF800000 : BitVec 32).extractLsb' 23 8 = 255 ∧
      256 ≤ small.cfg.bufSize := by decide

/-- A subnormal, the exponents 151, 254 and 150, and a product below one. -/
theorem witness_ConversionBounds :
    f32Exp 0x80000001 = 0 ∧ f32Exp 0x4B800000 = 151 ∧ f32Exp 0x7F7FFFFF = 254 ∧ f32Exp 0x4B7FFFFF = 150 ∧
      valueOf 0xBF000000 = some (-1 / 2) ∧ |(-1 / 2 : ℚ)| * ((1 : Nat) : ℚ) < 1 := by
  refine ⟨by decide, by decide, by decide, by decide, valueOf_negative, ?_⟩
  norm_num [abs_div]

/-- Two readings in order, the second an integer after scaling. -/
theorem witness_ScaleTruncLaws :
    valueOf 0xBF000000 = some (-1 / 2) ∧ valueOf 0x41AC0000 = some (43 / 2) ∧ (-1 / 2 : ℚ) ≤ 43 / 2 ∧
      (-1 / 2 : ℚ) * ((100 : Nat) : ℚ) = ((-50 : ℤ) : ℚ) := by
  refine ⟨valueOf_negative, valueOf_example, ?_, ?_⟩ <;> norm_num

/-- A word for each case: no command, each failure, success. -/
theorem witness_FailureCausesAndPriority :
    decode 0x1400001F00000000 = .illegal (.opcode 0x14) ∧ CmdCause small.cfg (.wrLe1 0 257 7) ∧
      CmdCause small.cfg (.wrHdr 0 31 true 4 2) ∧
      (¬ CmdCause small.cfg (.encPressure 0 31 0x4823D70B) ∧ RangeCause (.encPressure 0 31 0x4823D70B)) ∧
      (¬ CmdCause small.cfg (.wrLe2 30 31 7) ∧ ¬ RangeCause (.wrLe2 30 31 7) ∧ CapCause (.wrLe2 30 31 7)) ∧
      (¬ CmdCause small.cfg (.wrLe2 29 31 7) ∧ ¬ RangeCause (.wrLe2 29 31 7) ∧ ¬ CapCause (.wrLe2 29 31 7)) := by
  have hr : ∀ o, ¬ RangeCause (.wrLe2 o 31 7) := by
    rintro o ⟨f, a, b, v, h, _⟩
    cases f <;> simp [Field.command] at h
  refine ⟨by decide, .inl (by decide), .inr ⟨0, 31, true, 4, 2, rfl, .inr (by decide)⟩,
    ⟨?_, ⟨.pressure, 0, 31, 0x4823D70B, rfl, rejects_pressure⟩⟩, 
    ⟨?_, hr 30, by simp [CapCause, Instr.off, Instr.cap, need]⟩,
    ⟨?_, hr 29, by simp [CapCause, Instr.off, Instr.cap, need]⟩⟩ <;>
    simp [CmdCause, Instr.cap, small, State.reset, State.resetOf, Config.default]

theorem witness_ResultCodes :
    ((nextOf (runCommand 0x2400001F447D5000 small)).map (·.res)) = some 0x05 ∧
      ((nextOf (runCommand 0x2400000F447D5000 small)).map (·.res)) = some 0x05 ∧
      ((nextOf (runCommand 0x24000004447D5000 small)).map (·.res)) = some 0xFF := by decide

/-- A success, a failing command and an illegal word. -/
theorem witness_CommandIsAtomic :
    ((nextOf (exec (.wrLe2 4 31 7) small)).map (·.res)) = some 0x02 ∧
      ((nextOf (runCommand 0x1101F01F00000007 small)).map fun t => resFailed t.res) = some true ∧
      ((nextOf (runCommand 0x0000000000000000 small)).map fun t => resFailed t.res) = some true := by decide

/-- The four bytes of a temperature at 4 to 7 change what is read at 5. -/
theorem witness_WritesOnlyInsideTheWindow :
    ((nextOf (exec (.encTemperature 4 8 0x41AC0000) small)).map fun t => t.buf.read 5) = some (some 0x02) ∧
      small.buf.read 5 = some 0xEE := by decide

theorem witness_OutcomeDependsOnWordAndParameters : small.cfg = Config.default ∧ small ≠ State.reset := by decide

theorem witness_CommandsAreIdempotent :
    Memory.wf small.buf = true ∧ (nextOf (runCommand 0x2100401F41AC0000 small)).isSome = true := by decide

end Sys2Proof.Tests
end

section
/-! PROOFS. What a command answers, decided before the state is: one failure, or one list of bytes at OFF inside
the window (10_state.md R27, R28). -/

namespace Sys2Proof.Machine

/-- On all states with the parameters `P`, `f` answers in one way: one failure, or the same `k` bytes put at `off`
inside `[off, cap)` and inside BUF, with `k` in RES (20_memory.md R46, 60_exceptions.md R141). -/
def AnswersUniformly (P : Config) (off k cap : Nat) (f : State → Host.Outcome State Fault Refusal) : Prop :=
  (∃ e : Failure, ∀ s : State, s.cfg = P → f s = .next (s.raise e)) ∨
  ∃ bytes : List Byte, bytes.length = k ∧ off + k ≤ cap ∧ cap ≤ P.bufSize ∧ ∀ s : State, s.cfg = P →
    f s = .next { s with buf := s.buf.applyWrites (portWrites off bytes), res := countCode k }

/-- A uniform answer is one list of writes and one value of RES: a failure writes nothing. -/
theorem AnswersUniformly.exists_writes {P : Config} {off k cap : Nat}
    {f : State → Host.Outcome State Fault Refusal} (h : AnswersUniformly P off k cap f) :
    ∃ (ws : List Host.Cell) (r : Byte), ∀ s : State, s.cfg = P →
      f s = .next { s with buf := s.buf.applyWrites ws, res := r } := by
  obtain ⟨e, hfail⟩ | ⟨bytes, -, -, -, hok⟩ := h
  · exact ⟨[], e.code, hfail⟩
  · exact ⟨portWrites off bytes, countCode k, hok⟩

variable (P : Config) (off cap : Nat)

theorem writeScalar_answersUniformly (w : Nat) (val : BitVec 32) :
    AnswersUniformly P off w cap (writeScalar w off cap val) := by
  rcases lt_or_ge P.bufSize cap with hillegal | hcap
  · exact .inl ⟨.cmd, by rintro s rfl; exact writeScalar_illegal hillegal⟩
  rcases lt_or_ge cap (off + w) with hshort | hfit
  · exact .inl ⟨.cap, by rintro s rfl; exact writeScalar_short hcap hshort⟩
  · exact .inr ⟨leBytes (rawOperand w val) w, leBytes_length .., hfit, hcap,
      by rintro s rfl; exact writeScalar_ok hcap hfit⟩

theorem execWrHdr_answersUniformly (sgn : Bool) (dlen : Nat) (tid : Byte) :
    AnswersUniformly P off 2 cap (execWrHdr off cap sgn dlen tid) := by
  by_cases hillegal : P.bufSize < cap ∨ dlen < 1 ∨ 3 < dlen
  · exact .inl ⟨.cmd, by rintro s rfl; exact execWrHdr_illegal hillegal⟩
  obtain ⟨hcap, hlo, hhi⟩ : cap ≤ P.bufSize ∧ 1 ≤ dlen ∧ dlen ≤ 3 := by omega
  rcases lt_or_ge cap (off + 2) with hshort | hfit
  · exact .inl ⟨.cap, by rintro s rfl; exact execWrHdr_short hcap hlo hhi hshort⟩
  · exact .inr ⟨[hdrByte0 (formatOf P sgn) (BitVec.ofNat 5 (dlen + 1)), tid], rfl, hfit, hcap,
      by rintro s rfl; exact execWrHdr_ok hcap hlo hhi hfit⟩

/-- The format and the identifier are those of the state's parameters, as the five encoders take them
(43_field_encoders.md R120). -/
theorem encodeField_answersUniformly (fmt : Config → BitVec 3) (tid : Config → Byte) (w : Nat)
    (conv : Option Int) :
    AnswersUniformly P off (2 + w) cap fun s => encodeField (fmt s.cfg) (tid s.cfg) w off cap conv s := by
  rcases lt_or_ge P.bufSize cap with hillegal | hcap
  · exact .inl ⟨.cmd, by rintro s rfl; exact encodeField_illegal hillegal⟩
  cases conv with
  | none => exact .inl ⟨.range, by rintro s rfl; exact encodeField_range hcap⟩
  | some n =>
    rcases lt_or_ge cap (off + (2 + w)) with hshort | hfit
    · exact .inl ⟨.cap, by rintro s rfl; exact encodeField_short hcap hshort⟩
    · exact .inr ⟨encodedBytes (fmt P) (tid P) w n, encodedBytes_length .., hfit, hcap,
        by rintro s rfl; exact encodeField_ok hcap hfit⟩

theorem exec_answersUniformly (i : Instr) : AnswersUniformly P i.off (need i) i.cap (exec i) := by
  cases i with
  | wrHdr off cap sgn dlen tid => exact execWrHdr_answersUniformly P off cap sgn dlen tid
  | wrLe1 off cap val => exact writeScalar_answersUniformly P off cap 1 val
  | wrLe2 off cap val => exact writeScalar_answersUniformly P off cap 2 val
  | wrLe3 off cap val => exact writeScalar_answersUniformly P off cap 3 val
  | encPacketId off cap val =>
    exact encodeField_answersUniformly P off cap Config.fmtUnsigned Config.idPacketId 1 (convertU32 val)
  | encTemperature off cap val =>
    exact encodeField_answersUniformly P off cap Config.fmtSigned Config.idTemperature 2
      (convert val 100 (-32768) 32767)
  | encHumidity off cap val =>
    exact encodeField_answersUniformly P off cap Config.fmtUnsigned Config.idHumidity 2 (convert val 100 0 65535)
  | encBattery off cap val =>
    exact encodeField_answersUniformly P off cap Config.fmtUnsigned Config.idBattery 2 (convert val 1 0 65535)
  | encPressure off cap val =>
    exact encodeField_answersUniformly P off cap Config.fmtUnsigned Config.idPressure 3
      (convert val 100 0 16777215)

theorem runCommand_of_command {c : Word} {i : Instr} (h : decode c = .command i) :
    runCommand c = exec i := by
  funext s
  simp only [runCommand, h]

theorem runCommand_of_illegal {c : Word} {why : Illegal} (h : decode c = .illegal why) (s : State) :
    runCommand c s = .next (s.raise .cmd) := by
  simp only [runCommand, h]

/-- Settles O47: an illegal word always answers ERR_CMD and writes nothing; a command answers uniformly. -/
theorem outcomeDependsOnWordAndParameters : Obligations.OutcomeDependsOnWordAndParameters := by
  intro P c
  cases hc : decode c with
  | illegal why => exact ⟨[], Failure.cmd.code, fun s _ => runCommand_of_illegal hc s⟩
  | command i =>
    rw [runCommand_of_command hc]
    exact (exec_answersUniformly P i).exists_writes

end Sys2Proof.Machine
end

section
/-! PROOFS. A list of bytes written at ascending addresses: what is read there, and what stays as before
(20_memory.md R44); all of a command's bytes or none (20_memory.md R50, 60_exceptions.md R144). -/

namespace Sys2Proof.Machine

/-! ### Bytes written at ascending addresses -/

theorem byteOf_eq_div (v k : Nat) : byteOf v k = BitVec.ofNat 8 (v / 2 ^ (8 * k)) := by
  rw [byteOf, Nat.shiftRight_eq_div_pow]

theorem holdsBytes_applyWrites (off : Nat) (bytes : List Byte) (r : Byte) (s : State) :
    HoldsBytes off bytes { s with buf := s.buf.applyWrites (portWrites off bytes), res := r } :=
  fun k h => Memory.read_applyWrites_inside bytes off k s.buf h

theorem unchangedOutside_applyWrites (off : Nat) (bytes : List Byte) (r : Byte) (s : State) :
    UnchangedOutside off bytes.length s
      { s with buf := s.buf.applyWrites (portWrites off bytes), res := r } :=
  ⟨rfl, rfl, rfl, fun a h => Memory.read_applyWrites_outside bytes off a s.buf h⟩

theorem State.read_memWrite (a w v : Nat) (s : State) {k : Nat} (hk : k < w) :
    (s.memWrite a w v).buf.read (a + k) = some (byteOf v k) := by
  have hlen : k < (leBytes v w).length := by rwa [leBytes_length]
  rw [State.memWrite_buf, Memory.read_applyWrites_inside _ a k s.buf hlen, leBytes_getElem]

theorem State.memWrite_unchangedOutside (a w v : Nat) (s : State) :
    UnchangedOutside a w s (s.memWrite a w v) := by
  have h := unchangedOutside_applyWrites a (leBytes v w) s.res s
  rwa [leBytes_length] at h

/-- Settles O15: byte `k` of the little-endian list lands at `a + k`, and the writes stay inside the list's
addresses. -/
theorem memWriteIsLittleEndian : Obligations.MemWriteIsLittleEndian := by
  intro a w v s
  refine ⟨fun k hk => ?_, s.memWrite_unchangedOutside a w v, s.memWrite_res a w v⟩
  rw [s.read_memWrite a w v hk, byteOf_eq_div]

/-! ### All the bytes or none -/

theorem need_le_five (i : Instr) : need i ≤ 5 := by
  cases i <;> simp [need]

/-- A byte count below 128 leaves bit 7 of RES clear, so it is no failure code (10_state.md R26). -/
theorem resFailed_countCode {n : Nat} (h : n < 128) : resFailed (countCode n) = false := by
  simp only [resFailed, countCode, BitVec.getLsbD_ofNat, Nat.testBit_lt_two_pow (i := 7) h, Bool.and_false]

/-- What `exec` can answer: one failure in RES alone, or the `need` bytes at OFF with their count in RES. -/
theorem exec_cases (i : Instr) (s : State) :
    (∃ e : Failure, exec i s = .next (s.raise e)) ∨
    ∃ bytes : List Byte, bytes.length = need i ∧
      exec i s =
        .next { s with buf := s.buf.applyWrites (portWrites i.off bytes), res := countCode (need i) } := by
  obtain ⟨e, hfail⟩ | ⟨bytes, hlen, -, -, hok⟩ := exec_answersUniformly s.cfg i
  · exact .inl ⟨e, hfail s rfl⟩
  · exact .inr ⟨bytes, hlen, hok s rfl⟩

/-- The count of a success is at most 5, so bit 7 of RES tells that the command raised a failure. -/
theorem exists_raise_of_exec {i : Instr} {s t : State} (h : exec i s = .next t)
    (hfail : resFailed t.res = true) : ∃ e : Failure, t = s.raise e := by
  obtain ⟨e, hraise⟩ | ⟨bytes, -, hok⟩ := exec_cases i s
  · rw [hraise] at h
    cases h
    exact ⟨e, rfl⟩
  · rw [hok] at h
    cases h
    have hcount : resFailed (countCode (need i)) = false :=
      resFailed_countCode (by have := need_le_five i; omega)
    simp [hcount] at hfail

theorem exists_raise_of_runCommand {c : Word} {s t : State} (h : runCommand c s = .next t)
    (hfail : resFailed t.res = true) : ∃ e : Failure, t = s.raise e := by
  cases hc : decode c with
  | illegal why =>
    rw [runCommand_of_illegal hc] at h
    cases h
    exact ⟨.cmd, rfl⟩
  | command i =>
    rw [runCommand_of_command hc] at h
    exact exists_raise_of_exec h hfail

/-- Settles O45: the two answers of `exec`, and that a failing word's answer is a raised failure. -/
theorem commandIsAtomic : Obligations.CommandIsAtomic := by
  constructor
  · intro i s
    obtain ⟨e, hraise⟩ | ⟨bytes, hlen, hok⟩ := exec_cases i s
    · exact ⟨_, hraise, .inr ⟨e, rfl⟩⟩
    · refine ⟨_, hok, .inl ⟨bytes, hlen, rfl, holdsBytes_applyWrites i.off bytes _ s, ?_⟩⟩
      rw [← hlen]
      exact unchangedOutside_applyWrites i.off bytes _ s
  · intro c s t h hfail
    obtain ⟨e, rfl⟩ := exists_raise_of_runCommand h hfail
    rfl

end Sys2Proof.Machine
end

section
/-! PROOFS. The opcode map (30_encoding.md R63, R64): which words are commands and what each one decodes to; the
causes of ERR_CMD (30_encoding.md R68, R69). -/

namespace Sys2Proof

/-- The nine values of OP that are commands (30_encoding.md R63). -/
def commandOps : List (BitVec 8) := [0x10, 0x11, 0x12, 0x13, 0x20, 0x21, 0x22, 0x23, 0x24]

/-- The condition of 30_encoding.md R64 for a word to be a command. -/
def IsCommandWord (c : Word) : Prop :=
  opField c ∈ commandOps ∧ (opField c = 0x10 → rsvdField c = 0)

variable {c : Word}

/-! ### `decode`, one equation per row of the opcode map -/

theorem decode_wrHdr (h : opField c = 0x10) (hr : rsvdField c = 0) :
    decode c = .command (.wrHdr (offField c) (capField c) (sgnField c) (dlenField c) (tidField c)) := by
  simp [decode, h, hr]

theorem decode_reservedBits (h : opField c = 0x10) (hr : rsvdField c ≠ 0) :
    decode c = .illegal .reservedBits := by
  simp only [decode, h]
  exact if_neg hr

theorem decode_wrLe1 (h : opField c = 0x11) :
    decode c = .command (.wrLe1 (offField c) (capField c) (valField c)) := by
  simp [decode, h]

theorem decode_wrLe2 (h : opField c = 0x12) :
    decode c = .command (.wrLe2 (offField c) (capField c) (valField c)) := by
  simp [decode, h]

theorem decode_wrLe3 (h : opField c = 0x13) :
    decode c = .command (.wrLe3 (offField c) (capField c) (valField c)) := by
  simp [decode, h]

theorem decode_encPacketId (h : opField c = 0x20) :
    decode c = .command (.encPacketId (offField c) (capField c) (valField c)) := by
  simp [decode, h]

theorem decode_encTemperature (h : opField c = 0x21) :
    decode c = .command (.encTemperature (offField c) (capField c) (valField c)) := by
  simp [decode, h]

theorem decode_encHumidity (h : opField c = 0x22) :
    decode c = .command (.encHumidity (offField c) (capField c) (valField c)) := by
  simp [decode, h]

theorem decode_encBattery (h : opField c = 0x23) :
    decode c = .command (.encBattery (offField c) (capField c) (valField c)) := by
  simp [decode, h]

theorem decode_encPressure (h : opField c = 0x24) :
    decode c = .command (.encPressure (offField c) (capField c) (valField c)) := by
  simp [decode, h]

theorem decode_illegalOp (h : opField c ∉ commandOps) : decode c = .illegal (.opcode (opField c)) := by
  simp only [commandOps, List.mem_cons, List.not_mem_nil, or_false, not_or, ← BitVec.toNat_inj,
    BitVec.reduceToNat] at h
  unfold decode
  split
  case h_10 => rfl
  all_goals omega

/-! ### Which words are commands -/

theorem decode_of_isCommandWord (h : IsCommandWord c) :
    ∃ i, decode c = .command i ∧ i.op = opField c ∧ i.off = offField c ∧ i.cap = capField c ∧
      i.val = valField c := by
  obtain ⟨hop, hrsvd⟩ := h
  simp only [commandOps, List.mem_cons, List.not_mem_nil, or_false] at hop
  rcases hop with h | h | h | h | h | h | h | h | h
  · exact ⟨_, decode_wrHdr h (hrsvd h), h.symm, rfl, rfl, hdrVal_fields c (hrsvd h)⟩
  · exact ⟨_, decode_wrLe1 h, h.symm, rfl, rfl, rfl⟩
  · exact ⟨_, decode_wrLe2 h, h.symm, rfl, rfl, rfl⟩
  · exact ⟨_, decode_wrLe3 h, h.symm, rfl, rfl, rfl⟩
  · exact ⟨_, decode_encPacketId h, h.symm, rfl, rfl, rfl⟩
  · exact ⟨_, decode_encTemperature h, h.symm, rfl, rfl, rfl⟩
  · exact ⟨_, decode_encHumidity h, h.symm, rfl, rfl, rfl⟩
  · exact ⟨_, decode_encBattery h, h.symm, rfl, rfl, rfl⟩
  · exact ⟨_, decode_encPressure h, h.symm, rfl, rfl, rfl⟩

theorem exists_command_iff : (∃ i, decode c = .command i) ↔ IsCommandWord c := by
  constructor
  · rintro ⟨i, hi⟩
    refine ⟨?_, fun hop => ?_⟩
    · by_contra hop
      simp [decode_illegalOp hop] at hi
    · by_contra hr
      simp [decode_reservedBits hop hr] at hi
  · intro h
    obtain ⟨i, hi, -⟩ := decode_of_isCommandWord h
    exact ⟨i, hi⟩

/-- The rows of the table admit the words that `decode` takes for commands. -/
theorem exists_row_admits_iff : (∃ r ∈ opcodeTable, r.admits c = true) ↔ IsCommandWord c := by
  simp only [opcodeTable, List.mem_cons, List.not_mem_nil, or_false, exists_eq_or_imp, exists_eq_left]
  refine Iff.trans (or_congr (admits_hdrRow c) (or_congr (admits_opRow c 0x11 _ _ rfl)
    (or_congr (admits_opRow c 0x12 _ _ rfl) (or_congr (admits_opRow c 0x13 _ _ rfl)
    (or_congr (admits_opRow c 0x20 _ _ rfl) (or_congr (admits_opRow c 0x21 _ _ rfl)
    (or_congr (admits_opRow c 0x22 _ _ rfl) (or_congr (admits_opRow c 0x23 _ _ rfl)
    (admits_opRow c 0x24 _ _ rfl))))))))) ?_
  simp only [IsCommandWord, commandOps, List.mem_cons, List.not_mem_nil, or_false]
  by_cases h : opField c = 16#8
  · simp [h]
  · simp [h]

end Sys2Proof

namespace Sys2Proof.Machine

/-! ### ERR_CMD -/

/-- Every meaning tests CAP first (20_memory.md R46). -/
theorem exec_of_cap_gt {i : Instr} {s : State} (h : i.cap > s.cfg.bufSize) :
    exec i s = .next { s with res := 0xFD } := by
  cases i with
  | wrHdr => exact execWrHdr_illegal (.inl h)
  | wrLe1 | wrLe2 | wrLe3 => exact writeScalar_illegal h
  | encPacketId | encTemperature | encHumidity | encBattery | encPressure => exact encodeField_illegal h

theorem exec_of_cmdCause {i : Instr} {s : State} (h : CmdCause s.cfg i) :
    exec i s = .next { s with res := 0xFD } := by
  obtain hcap | ⟨off, cap, sgn, dlen, tid, rfl, hdlen⟩ := h
  · exact exec_of_cap_gt hcap
  · exact execWrHdr_illegal (.inr hdlen)

theorem runCommand_of_illegalOp {c : Word} (h : opField c ∉ commandOps) (s : State) :
    runCommand c s = .next { s with res := 0xFD } :=
  runCommand_of_illegal (decode_illegalOp h) s

/-- Settles O3: the opcode map, clause by clause, from the equations of `decode`. -/
theorem decodeFollowsOpcodeMap : Obligations.DecodeFollowsOpcodeMap := by
  intro c
  refine ⟨fun hop => ⟨_, decode_illegalOp hop⟩, fun hop hr => ⟨_, decode_reservedBits hop hr⟩,
    fun hop hr => decode_of_isCommandWord ⟨hop, hr⟩, exists_command_iff.trans exists_row_admits_iff.symm,
    fun why s hc => runCommand_of_illegal hc s, fun i s hc hcause => ?_⟩
  rw [runCommand_of_command hc]
  exact exec_of_cmdCause hcause

/-- The values of OP that are no command, range by range (30_encoding.md R68). -/
def illegalOps : List Nat := List.range 0x10 ++ (List.range' 0x14 12 ++ List.range' 0x25 219)

theorem mem_illegalOps (n : Nat) : n ∈ illegalOps ↔ IllegalOp n := by
  simp only [illegalOps, List.mem_append, List.mem_range, List.mem_range'_1, IllegalOp]
  omega

theorem illegalOps_nodup : illegalOps.Nodup := by
  simp only [illegalOps, List.nodup_append, List.mem_append, List.mem_range, List.mem_range'_1]
  refine ⟨List.nodup_range, ⟨List.nodup_range', List.nodup_range', ?_⟩, ?_⟩
  · omega
  · omega

theorem illegalOps_length : illegalOps.length = 247 := by
  simp only [illegalOps, List.length_append, List.length_range, List.length_range', Nat.reduceAdd]

theorem illegalOp_iff_not_mem_commandOps (op : BitVec 8) : IllegalOp op.toNat ↔ op ∉ commandOps := by
  have := op.isLt
  simp only [IllegalOp, commandOps, List.mem_cons, List.not_mem_nil, or_false, ← BitVec.toNat_inj,
    BitVec.reduceToNat]
  omega

/-- Settles O6: the illegal values of OP are those outside the nine, so `decode` rejects their words. -/
theorem illegalOpcodeReportsErrCmd : Obligations.IllegalOpcodeReportsErrCmd := by
  refine ⟨⟨illegalOps, illegalOps_nodup, illegalOps_length, mem_illegalOps⟩, fun c s h => ?_, fun s => ⟨?_, ?_⟩⟩
  · have hop : opField c ∉ commandOps := (illegalOp_iff_not_mem_commandOps _).1 h
    exact ⟨⟨_, decode_illegalOp hop⟩, runCommand_of_illegalOp hop s⟩
  · exact runCommand_of_illegalOp (by decide) s
  · exact runCommand_of_illegalOp (by decide) s

/-- Settles O7: reserved bits are rejected by `decode`, DLEN and CAP by the meanings, and no other word of the nine
values of OP is rejected by `decode`. -/
theorem illegalOperandsReportErrCmd : Obligations.IllegalOperandsReportErrCmd := by
  refine ⟨fun c s hop hr => runCommand_of_illegal (decode_reservedBits hop hr) s,
    fun off cap dlen sgn tid s hdlen => ?_, fun i s hcap => exec_of_cap_gt hcap, fun c h => ?_⟩
  · exact execWrHdr_illegal (.inr (by omega))
  · rw [exists_command_iff]
    obtain hop | ⟨hop, hr⟩ := h
    · refine ⟨List.mem_cons_of_mem _ hop, fun (hhdr : c.extractLsb' 56 8 = 0x10) => ?_⟩
      rw [hhdr] at hop
      exact absurd hop (by decide)
    · have hmem : opField c ∈ commandOps := (show opField c = 0x10 from hop) ▸ List.mem_cons_self
      exact ⟨hmem, fun _ => hr⟩

end Sys2Proof.Machine
end

section
/-! PROOFS. Form RAW (30_encoding.md R67): a scalar writer's outcome is a function of the low bits of VAL. -/

namespace Sys2Proof.Machine

variable {w off cap : Nat} {mk : Nat → Nat → BitVec 32 → Instr}

theorem exec_scalarWriter (h : (w, mk) ∈ scalarWriters) (off cap : Nat) (val : BitVec 32) (s : State) :
    exec (mk off cap val) s = writeScalar w off cap val s := by
  simp only [scalarWriters, List.mem_cons, List.not_mem_nil, or_false, Prod.mk.injEq] at h
  rcases h with ⟨rfl, rfl⟩ | ⟨rfl, rfl⟩ | ⟨rfl, rfl⟩
  · rfl
  · rfl
  · rfl

theorem rawOperand_eq_toNat (w : Nat) (val : BitVec 32) :
    rawOperand w val = (val.extractLsb' 0 (8 * w)).toNat := by
  rw [rawOperand, BitVec.extractLsb'_toNat, Nat.shiftRight_zero]

theorem writeScalar_congr {u v : BitVec 32} (h : rawOperand w u = rawOperand w v) :
    writeScalar w off cap u = writeScalar w off cap v := by
  funext s
  simp only [writeScalar, h]

theorem byteOf_rawOperand {k : Nat} (hk : k < w) (val : BitVec 32) :
    byteOf (rawOperand w val) k = val.extractLsb' (8 * k) 8 := by
  apply BitVec.eq_of_toNat_eq
  rw [byteOf, BitVec.toNat_ofNat, BitVec.extractLsb'_toNat, rawOperand]
  apply Nat.eq_of_testBit_eq
  intro b
  simp only [Nat.testBit_mod_two_pow, Nat.testBit_shiftRight]
  by_cases hb : b < 8
  · simp [show 8 * k + b < 8 * w by omega]
  · simp [hb]

/-- A scalar writer that reports no failure has written its bytes (41_scalar_writer.md R94). -/
theorem eq_of_writeScalar_success {val : BitVec 32} {s t : State}
    (h : writeScalar w off cap val s = .next t) (hok : resFailed t.res = false) :
    t = { s with buf := s.buf.applyWrites (portWrites off (leBytes (rawOperand w val) w)),
                 res := countCode w } := by
  rcases lt_or_ge s.cfg.bufSize cap with hillegal | hcap
  · rw [writeScalar_illegal hillegal] at h
    cases h
    exact absurd hok (by decide : resFailed 0xFD ≠ false)
  rcases lt_or_ge cap (off + w) with hshort | hfit
  · rw [writeScalar_short hcap hshort] at h
    cases h
    exact absurd hok (by decide : resFailed 0xFF ≠ false)
  · rw [writeScalar_ok hcap hfit] at h
    cases h
    rfl

theorem read_of_writeScalar_success {val : BitVec 32} {s t : State}
    (h : writeScalar w off cap val s = .next t) (hok : resFailed t.res = false) {k : Nat} (hk : k < w) :
    t.buf.read (off + k) = some (val.extractLsb' (8 * k) 8) := by
  rw [eq_of_writeScalar_success h hok,
    holdsBytes_applyWrites off _ _ s k (by rwa [leBytes_length]), leBytes_getElem, byteOf_rawOperand hk]

/-- Sign extension and zero extension differ only above the width. -/
theorem rawOperand_signExtend (x : BitVec 16) :
    rawOperand 2 (x.signExtend 32) = rawOperand 2 (x.setWidth 32) := by
  rw [rawOperand_eq_toNat, rawOperand_eq_toNat]
  congr 1
  apply BitVec.eq_of_getLsbD_eq
  intro b (hb : b < 16)
  have hb32 : b < 32 := by omega
  simp only [BitVec.getLsbD_extractLsb', BitVec.getLsbD_signExtend, BitVec.getLsbD_setWidth, Nat.zero_add,
    hb, hb32, if_true, decide_true, Bool.true_and]

/-- Settles O26: the outcome is a function of the raw operand, which is the low `8 * w` bits of VAL. -/
theorem rawUpperBitsIgnored : Obligations.RawUpperBitsIgnored := by
  refine ⟨fun w mk hmem off cap u v s => ⟨fun huv => ?_, fun t h hok k hk => ?_⟩, fun off cap x s => ?_⟩
  · have hraw : rawOperand w u = rawOperand w v := by
      rw [rawOperand_eq_toNat, rawOperand_eq_toNat, huv]
    rw [exec_scalarWriter hmem, exec_scalarWriter hmem, writeScalar_congr hraw]
  · rw [exec_scalarWriter hmem] at h
    exact read_of_writeScalar_success h hok hk
  · exact congrFun (writeScalar_congr (rawOperand_signExtend x)) s

end Sys2Proof.Machine
end

section
/-! PROOFS. The object header (40_header_writer.md R80): the two parts of byte 0, and the two bytes that WR_HDR and
the field encoders write. -/

namespace Sys2Proof.Machine

/-! ### Byte 0 -/

/-- `plen < 32`, so the two parts of byte 0 do not overlap. -/
theorem hdrByte0_eq_append (fmt : BitVec 3) (plen : BitVec 5) : hdrByte0 fmt plen = fmt ++ plen := by
  rw [hdrByte0, BitVec.append_def, BitVec.shiftLeftZeroExtend_eq, BitVec.setWidth'_eq]

theorem hdrByte0_toNat (fmt : BitVec 3) (plen : BitVec 5) :
    (hdrByte0 fmt plen).toNat = fmt.toNat * 32 + plen.toNat := by
  rw [hdrByte0_eq_append]
  exact toNat_beside fmt plen

theorem shiftLeft_or_eq_mul_add (fmt : BitVec 3) {plen : Nat} (h : plen < 32) :
    fmt.toNat <<< 5 ||| plen = fmt.toNat * 32 + plen := by
  rw [← Nat.shiftLeft_add_eq_or_of_lt (i := 5) h, Nat.shiftLeft_eq]

theorem hdrByte0_ofNat_eq_headerByte (fmt : BitVec 3) {plen : Nat} (h : plen < 32) :
    hdrByte0 fmt (BitVec.ofNat 5 plen) = headerByte fmt plen := by
  have hfmt := fmt.isLt
  apply BitVec.eq_of_toNat_eq
  rw [hdrByte0_toNat, headerByte, shiftLeft_or_eq_mul_add fmt h, BitVec.toNat_ofNat, BitVec.toNat_ofNat]
  omega

/-! ### The two bytes in BUF -/

theorem HoldsBytes.read_header {off : Nat} {b tid : Byte} {rest : List Byte} {t : State}
    (h : HoldsBytes off (b :: tid :: rest) t) : t.buf.read off = some b ∧ t.buf.read (off + 1) = some tid :=
  ⟨h 0 (by simp), h 1 (by simp)⟩

theorem State.writeHdr_holdsBytes (a : Nat) (fmt : BitVec 3) (plen : Nat) (tid : Byte) (s : State) :
    HoldsBytes a [hdrByte0 fmt (BitVec.ofNat 5 plen), tid] (s.writeHdr a fmt plen tid) := by
  intro k h
  rw [State.writeHdr_buf, Memory.read_applyWrites_inside _ a k s.buf h]

/-! ### The commands that write a header -/

variable {w off cap dlen : Nat} {sgn : Bool} {fmt : BitVec 3} {tid : Byte} {conv : Option Int} {s t : State}

/-- A WR_HDR that reports no failure has written its two bytes (40_header_writer.md R81). -/
theorem eq_of_execWrHdr_success (h : execWrHdr off cap sgn dlen tid s = .next t)
    (hok : resFailed t.res = false) :
    dlen ≤ 3 ∧ t = { s with
      buf := s.buf.applyWrites
        (portWrites off [hdrByte0 (formatOf s.cfg sgn) (BitVec.ofNat 5 (dlen + 1)), tid])
      res := 0x02 } := by
  by_cases hillegal : s.cfg.bufSize < cap ∨ dlen < 1 ∨ 3 < dlen
  · rw [execWrHdr_illegal hillegal] at h
    cases h
    exact absurd hok (by decide : resFailed 0xFD ≠ false)
  obtain ⟨hcap, hlo, hhi⟩ : cap ≤ s.cfg.bufSize ∧ 1 ≤ dlen ∧ dlen ≤ 3 := by omega
  rcases lt_or_ge cap (off + 2) with hshort | hfit
  · rw [execWrHdr_short hcap hlo hhi hshort] at h
    cases h
    exact absurd hok (by decide : resFailed 0xFF ≠ false)
  · rw [execWrHdr_ok hcap hlo hhi hfit] at h
    cases h
    exact ⟨hhi, rfl⟩

/-- A field encoder that reports no failure has converted its operand and written the whole field
(43_field_encoders.md R121). -/
theorem eq_of_encodeField_success (h : encodeField fmt tid w off cap conv s = .next t)
    (hok : resFailed t.res = false) :
    ∃ n, conv = some n ∧ t = { s with
      buf := s.buf.applyWrites (portWrites off (encodedBytes fmt tid w n))
      res := countCode (2 + w) } := by
  rcases lt_or_ge s.cfg.bufSize cap with hillegal | hcap
  · rw [encodeField_illegal hillegal] at h
    cases h
    exact absurd hok (by decide : resFailed 0xFD ≠ false)
  cases conv with
  | none =>
    rw [encodeField_range hcap] at h
    cases h
    exact absurd hok (by decide : resFailed 0xFE ≠ false)
  | some n =>
    rcases lt_or_ge cap (off + (2 + w)) with hshort | hfit
    · rw [encodeField_short hcap hshort] at h
      cases h
      exact absurd hok (by decide : resFailed 0xFF ≠ false)
    · rw [encodeField_ok hcap hfit] at h
      cases h
      exact ⟨n, rfl, rfl⟩

theorem read_header_of_execWrHdr_success (h : execWrHdr off cap sgn dlen tid s = .next t)
    (hok : resFailed t.res = false) :
    t.buf.read off = some (headerByte (formatOf s.cfg sgn) (dlen + 1)) ∧ t.buf.read (off + 1) = some tid := by
  obtain ⟨hdlen, rfl⟩ := eq_of_execWrHdr_success h hok
  rw [← hdrByte0_ofNat_eq_headerByte _ (by omega : dlen + 1 < 32)]
  exact (holdsBytes_applyWrites off _ _ s).read_header

theorem read_header_of_encodeField_success (h : encodeField fmt tid w off cap conv s = .next t)
    (hok : resFailed t.res = false) (hw : w + 1 < 32) :
    t.buf.read off = some (headerByte fmt (w + 1)) ∧ t.buf.read (off + 1) = some tid := by
  obtain ⟨n, -, rfl⟩ := eq_of_encodeField_success h hok
  rw [← hdrByte0_ofNat_eq_headerByte fmt hw]
  exact (holdsBytes_applyWrites off (encodedBytes fmt tid w n) _ s).read_header

theorem convert_eq_bind (val : BitVec 32) (S : Nat) (lo hi : Int) :
    convert val S lo hi = (scaleTrunc val S).bind fun n => inRange n lo hi := by
  unfold convert
  cases scaleTrunc val S with
  | none => rfl
  | some n => rfl

/-- The scaled value of an operand where it lies in the field's range (42_fixed_point_conversion.md R105, R106). -/
def Field.converted (f : Field) (val : BitVec 32) : Option Int :=
  (f.scaled val).bind fun n => inRange n f.lo f.hi

/-- The five encoders are one, with the constants of the field (43_field_encoders.md R120, R121). -/
theorem exec_fieldCommand (f : Field) (off cap : Nat) (val : BitVec 32) (s : State) :
    exec (f.command off cap val) s =
      encodeField (formatOf s.cfg f.signed) (f.tid s.cfg) f.width off cap (f.converted val) s := by
  cases f with
  | packetId => rfl
  | temperature | humidity | battery | pressure =>
    exact congrArg (encodeField _ _ _ off cap · s) (convert_eq_bind val _ _ _)

theorem Field.width_le_three (f : Field) : f.width ≤ 3 := by
  cases f <;> decide

/-- Settles O16: byte 0 is the format beside the length, and a command that reports no failure wrote the header its
operands or its field give. -/
theorem headerBytesLayout : Obligations.HeaderBytesLayout := by
  intro fmt plen tid a s
  have hwritten := (s.writeHdr_holdsBytes a fmt plen.toNat tid).read_header
  rw [BitVec.ofNat_toNat, BitVec.setWidth_eq] at hwritten
  obtain ⟨hbyte0, hbyte1⟩ := hwritten
  refine ⟨hdrByte0 fmt plen, hbyte0, hbyte1, ?_, ?_, ?_, hdrByte0_toNat fmt plen, BitVec.isLt _,
    fun off cap t hok => ⟨fun sgn dlen id h => read_header_of_execWrHdr_success h hok, fun f val h => ?_⟩⟩
  · rw [hdrByte0_eq_append]
    exact BitVec.extractLsb'_append_eq_left
  · rw [hdrByte0_eq_append]
    exact BitVec.extractLsb'_append_eq_right
  · rw [hdrByte0_toNat, shiftLeft_or_eq_mul_add fmt plen.isLt]
  · rw [exec_fieldCommand] at h
    have := f.width_le_three
    exact read_header_of_encodeField_success h hok (by omega)

end Sys2Proof.Machine
end

section
/-! PROOFS. The scalar writers (41_scalar_writer.md R94): all `w` bytes and the count `w`, or a failure and no byte. -/

namespace Sys2Proof.Machine

theorem width_le_three_of_mem_scalarWriters {w : Nat} {mk : Nat → Nat → BitVec 32 → Instr}
    (h : (w, mk) ∈ scalarWriters) : w ≤ 3 := by
  simp only [scalarWriters, List.mem_cons, List.not_mem_nil, or_false, Prod.mk.injEq] at h
  omega

theorem countCode_toNat {n : Nat} (h : n < 256) : (countCode n).toNat = n :=
  Nat.mod_eq_of_lt h

/-- Every failure code has bit 7 set (60_exceptions.md R141). -/
theorem resFailed_code (e : Failure) : resFailed e.code = true := by
  cases e <;> decide

theorem HoldsBytes.isSome_read {off k : Nat} {bytes : List Byte} {t : State} (h : HoldsBytes off bytes t)
    (hk : k < bytes.length) : (t.buf.read (off + k)).isSome = true :=
  Option.isSome_of_eq_some (h k hk)

/-- Settles O27: a scalar writer's answer is one raised failure, or `w` bytes at OFF with the count `w`, which is at
most 3 and so no failure code. -/
theorem scalarWritesWidthOrNothing : Obligations.ScalarWritesWidthOrNothing := by
  intro w mk hmem off cap val s
  have hw : w ≤ 3 := width_le_three_of_mem_scalarWriters hmem
  rw [exec_scalarWriter hmem]
  obtain ⟨e, hfail⟩ | ⟨bytes, rfl, -, -, hok⟩ := writeScalar_answersUniformly s.cfg off cap w val
  · exact ⟨s.raise e, hfail s rfl, .inr ⟨resFailed_code e, rfl⟩⟩
  · have hholds := holdsBytes_applyWrites off bytes (countCode bytes.length) s
    exact ⟨_, hok s rfl, .inl ⟨resFailed_countCode (by omega), countCode_toNat (by omega),
      fun k hk => hholds.isSome_read hk, unchangedOutside_applyWrites off bytes _ s⟩⟩

end Sys2Proof.Machine
end

section
/-! PROOFS. ScaleTrunc (42_fixed_point_conversion.md R101 to R103): the shift of the significand is the floor of the
exact product, and the sign is put back afterwards. -/

namespace Sys2Proof.Machine

/-! ### `trunc` (R102) -/

theorem truncQ_of_nonneg {x : ℚ} (h : 0 ≤ x) : truncQ x = ⌊x⌋ := by
  rw [truncQ, if_neg h.not_gt, abs_of_nonneg h]

theorem truncQ_neg (x : ℚ) : truncQ (-x) = -truncQ x := by
  rcases lt_trichotomy x 0 with h | rfl | h
  · simp [truncQ, h, h.le]
  · simp [truncQ]
  · simp [truncQ, h, h.le]

theorem truncQ_eq_zero {x : ℚ} (h : |x| < 1) : truncQ x = 0 := by
  have hfloor : ⌊|x|⌋ = 0 := Int.floor_eq_zero_iff.2 ⟨abs_nonneg x, h⟩
  simp [truncQ, hfloor]

/-! ### The exact product -/

/-- The number that a sign, a significand and an exponent stand for (R101). -/
def decomposedValue (d : Bool × Nat × Int) : ℚ :=
  (if d.1 then -1 else 1) * (d.2.1 : ℚ) * (2 : ℚ) ^ d.2.2

theorem valueOf_eq_map_decompose (val : BitVec 32) : valueOf val = (decompose val).map decomposedValue := by
  unfold valueOf decompose
  split
  · rfl
  · split
    · rfl
    · norm_num [decomposedValue]

theorem shiftExact_eq_floor (q : Nat) (E : Int) : (shiftExact q E : Int) = ⌊(q : ℚ) * 2 ^ E⌋ := by
  obtain ⟨n, rfl | rfl⟩ := E.eq_nat_or_neg
  · have hprod : (q : ℚ) * 2 ^ (n : ℤ) = ((q * 2 ^ n : Nat) : ℚ) := by simp
    rw [hprod, Int.floor_natCast, shiftExact, if_pos (Int.natCast_nonneg n), Int.toNat_natCast, Nat.shiftLeft_eq]
  · have hquot : (q : ℚ) * 2 ^ (-(n : ℤ)) = (q : ℚ) / ((2 ^ n : Nat) : ℚ) := by simp [div_eq_mul_inv]
    rw [hquot, Rat.floor_natCast_div_natCast]
    rcases n.eq_zero_or_pos with rfl | hn
    · simp [shiftExact]
    · rw [shiftExact, if_neg (by omega), neg_neg, Int.toNat_natCast, Nat.shiftRight_eq_div_pow]
      rfl

theorem decomposedValue_mul (neg : Bool) (M S : Nat) (E : Int) :
    decomposedValue (neg, M, E) * (S : ℚ) =
      if neg then -(((M * S : Nat) : ℚ) * 2 ^ E) else ((M * S : Nat) : ℚ) * 2 ^ E := by
  rw [decomposedValue, Nat.cast_mul]
  split
  · ring
  · ring

theorem signed_shiftExact_eq_truncQ (neg : Bool) (M S : Nat) (E : Int) :
    (if neg then -(shiftExact (M * S) E : Int) else (shiftExact (M * S) E : Int)) =
      truncQ (decomposedValue (neg, M, E) * (S : ℚ)) := by
  have hmag : (shiftExact (M * S) E : Int) = truncQ (((M * S : Nat) : ℚ) * 2 ^ E) := by
    rw [shiftExact_eq_floor, truncQ_of_nonneg (by positivity)]
  rw [decomposedValue_mul, hmag]
  split
  · exact (truncQ_neg _).symm
  · rfl

theorem scaleTrunc_eq_map_truncQ (val : BitVec 32) (S : Nat) :
    scaleTrunc val S = (valueOf val).map fun x => truncQ (x * (S : ℚ)) := by
  rw [valueOf_eq_map_decompose]
  unfold scaleTrunc
  cases decompose val with
  | none => rfl
  | some d =>
    obtain ⟨neg, M, E⟩ := d
    exact congrArg some (signed_shiftExact_eq_truncQ neg M S E)

/-- Settles O36: the shift is the floor of the exact magnitude, and `trunc` is odd. -/
theorem scaleTruncIsExact : Obligations.ScaleTruncIsExact :=
  ⟨scaleTrunc_eq_map_truncQ, by decide⟩

/-! ### Consequences -/

theorem valueOf_eq_none {val : BitVec 32} (h : f32Exp val = 255) : valueOf val = none :=
  if_pos h

theorem scaleTrunc_eq_none {val : BitVec 32} (h : f32Exp val = 255) (S : Nat) : scaleTrunc val S = none := by
  rw [scaleTrunc_eq_map_truncQ, valueOf_eq_none h]
  rfl

theorem scaleTrunc_eq_zero {val : BitVec 32} {S : Nat} {x : ℚ} (hx : valueOf val = some x)
    (hsmall : |x * (S : ℚ)| < 1) : scaleTrunc val S = some 0 := by
  rw [scaleTrunc_eq_map_truncQ, hx, Option.map_some, truncQ_eq_zero hsmall]

end Sys2Proof.Machine
end

section
/-! PROOFS. What a field encoder does with its conversion (43_field_encoders.md R121, 42_fixed_point_conversion.md
R105): ERR_RANGE where there is none, else the value bytes after the header. -/

namespace Sys2Proof.Machine

variable {f : Field} {off cap : Nat} {val : BitVec 32} {n : Int} {s : State}

/-! ### The conversion of a field -/

theorem Field.converted_eq_some_iff : f.converted val = some n ↔ f.Accepts val n := by
  rw [Field.converted, Option.bind_eq_some_iff]
  constructor
  · rintro ⟨m, hscaled, hrange⟩
    obtain ⟨rfl, hlo, hhi⟩ := inRange_eq_some.1 hrange
    exact ⟨hscaled, hlo, hhi⟩
  · rintro ⟨hscaled, hlo, hhi⟩
    exact ⟨n, hscaled, inRange_eq_some.2 ⟨rfl, hlo, hhi⟩⟩

/-- Every field but the packet id takes a reading (R106, R111). -/
theorem Field.scaled_eq_scaleTrunc (hf : f ≠ .packetId) : f.scaled val = scaleTrunc val f.scale := by
  cases f with
  | packetId => exact absurd rfl hf
  | temperature | humidity | battery | pressure => rfl

theorem Field.lo_nonpos (f : Field) : f.lo ≤ 0 := by
  cases f <;> decide

theorem Field.hi_nonneg (f : Field) : 0 ≤ f.hi := by
  cases f <;> decide

theorem Field.accepts_zero_of_small {x : ℚ} (hf : f ≠ .packetId) (hx : valueOf val = some x)
    (hsmall : |x * (f.scale : ℚ)| < 1) : f.Accepts val 0 :=
  ⟨(Field.scaled_eq_scaleTrunc hf).trans (scaleTrunc_eq_zero hx hsmall), f.lo_nonpos, f.hi_nonneg⟩

theorem Field.converted_of_notFinite (hf : f ≠ .packetId) (h : f32Exp val = 255) : f.converted val = none := by
  rw [Field.converted, Field.scaled_eq_scaleTrunc hf, scaleTrunc_eq_none h]
  rfl

theorem converted_packetId_of_ge (h : 256 ≤ val.toNat) : Field.packetId.converted val = none :=
  inRange_eq_none.2 (.inr (show (255 : Int) < val.toNat by omega))

/-! ### The two answers -/

theorem exec_fieldCommand_of_converted_none (hcap : cap ≤ s.cfg.bufSize) (h : f.converted val = none) :
    exec (f.command off cap val) s = .next { s with res := 0xFE } := by
  rw [exec_fieldCommand, h]
  exact encodeField_range hcap

theorem exec_fieldCommand_of_accepts (hcap : cap ≤ s.cfg.bufSize) (h : f.Accepts val n)
    (hfit : off + 2 + f.width ≤ cap) :
    exec (f.command off cap val) s = .next { s with
      buf := s.buf.applyWrites
        (portWrites off (encodedBytes (formatOf s.cfg f.signed) (f.tid s.cfg) f.width n))
      res := countCode (2 + f.width) } := by
  rw [exec_fieldCommand, Field.converted_eq_some_iff.2 h]
  exact encodeField_ok hcap (by omega)

theorem encodedBytes_getElem_value (fmt : BitVec 3) (tid : Byte) (w : Nat) (n : Int) {k : Nat}
    (h : 2 + k < (encodedBytes fmt tid w n).length) :
    (encodedBytes fmt tid w n)[2 + k] = byteOf (tc (8 * w) n) k := by
  simp [encodedBytes, Nat.add_comm 2 k]

/-- An accepted operand with room for its field is written: the value bytes follow the header (R121). -/
theorem exists_next_of_accepts (hcap : cap ≤ s.cfg.bufSize) (h : f.Accepts val n)
    (hfit : off + 2 + f.width ≤ cap) :
    ∃ t, exec (f.command off cap val) s = .next t ∧ resFailed t.res = false ∧
      ∀ k, k < f.width → t.buf.read (off + 2 + k) = some (byteOf (tc (8 * f.width) n) k) := by
  have hw := f.width_le_three
  refine ⟨_, exec_fieldCommand_of_accepts hcap h hfit, resFailed_countCode (by omega), fun k hk => ?_⟩
  rw [Nat.add_assoc, holdsBytes_applyWrites off _ _ s (2 + k) (by rw [encodedBytes_length]; omega),
    encodedBytes_getElem_value]

end Sys2Proof.Machine
end

section
/-! PROOFS. The operands at the edge of a field (42_fixed_point_conversion.md R108, R109, R111): packet ids around
255, readings that truncate to 0, infinities and NaNs. -/

namespace Sys2Proof.Machine

theorem accepts_packetId_of_le {val : BitVec 32} (h : val.toNat ≤ 255) :
    Field.packetId.Accepts val (val.toNat : Int) :=
  ⟨rfl, Int.natCast_nonneg _, show (val.toNat : Int) ≤ 255 by omega⟩

theorem byteOf_tc_natCast_toNat {m : Nat} (h : m ≤ 255) : (byteOf (tc 8 m) 0).toNat = m := by
  have htc : tc 8 m = m := by
    have := tc_cast 8 m
    omega
  rw [byteOf_eq_div, htc, BitVec.toNat_ofNat]
  omega

theorem byteOf_tc_zero (N k : Nat) : byteOf (tc N 0) k = 0x00 := by
  simp [tc, byteOf]

/-- Settles O35: 256 and more have no conversion; up to 255 the one value byte is the integer. -/
theorem packetIdIsNeverReduced : Obligations.PacketIdIsNeverReduced := by
  refine fun off cap val s hcap => ⟨fun hlarge => ?_, fun hsmall hfit => ?_⟩
  · exact exec_fieldCommand_of_converted_none hcap (converted_packetId_of_ge hlarge)
  · obtain ⟨t, hexec, -, hbytes⟩ := exists_next_of_accepts hcap (accepts_packetId_of_le hsmall) hfit
    exact ⟨t, _, hexec, hbytes 0 Nat.one_pos, byteOf_tc_natCast_toNat hsmall⟩

/-- Settles O40: the exponent 255 has no scaled value, so no F32 field converts it. -/
theorem notFiniteReportsErrRange : Obligations.NotFiniteReportsErrRange := by
  intro off cap val s hexp hcap
  have hnotFinite : f32Exp val = 255 := congrArg BitVec.toNat hexp
  have herr (f : Field) (hf : f ≠ .packetId) : exec (f.command off cap val) s = .next { s with res := 0xFE } :=
    exec_fieldCommand_of_converted_none hcap (Field.converted_of_notFinite hf hnotFinite)
  exact ⟨herr .temperature (by decide), herr .humidity (by decide), herr .battery (by decide),
    herr .pressure (by decide)⟩

theorem valueOf_negativeZero : valueOf 0x80000000 = some 0 := by
  simp only [valueOf, show f32Exp 0x80000000 = 0 from rfl, show f32Frac 0x80000000 = 0 from rfl]
  norm_num

theorem valueOf_justAbove_negative_hundredth :
    valueOf 0xBC23D70A = some (-0.00999999977648258209228515625) := by
  simp only [valueOf, show f32Exp 0xBC23D70A = 120 from rfl, show f32Frac 0xBC23D70A = 0x23D70A from rfl,
    show f32Sign 0xBC23D70A = true by decide]
  norm_num

/-- Settles O39: a product below one in magnitude truncates to 0, which every field accepts; the named patterns are
computed. -/
theorem smallReadingsGiveZero : Obligations.SmallReadingsGiveZero := by
  refine ⟨fun f val x hf hx hsmall => ?_, valueOf_negativeZero, by decide, by decide,
    valueOf_justAbove_negative_hundredth, by decide, by decide, ⟨by decide, by decide, by decide⟩, by decide,
    fun off cap s hcap => ?_⟩
  · have hzero : f.Accepts val 0 := Field.accepts_zero_of_small hf hx hsmall
    refine ⟨hzero, fun off cap s hcap hfit => ?_⟩
    obtain ⟨t, hexec, hok, hbytes⟩ := exists_next_of_accepts hcap hzero hfit
    exact ⟨t, hexec, hok, fun k hk => (hbytes k hk).trans (congrArg some (byteOf_tc_zero _ k))⟩
  · have hnone : Field.humidity.converted 0xBF000000 = none := by decide
    exact exec_fieldCommand_of_converted_none hcap hnone

end Sys2Proof.Machine
end

section
/-! PROOFS. The field encoders (43_field_encoders.md R121, R127, R130): each check's answer, the bytes of an accepted
operand, the count beside the declared length, and the edge of the window. -/

namespace Sys2Proof.Machine

/-! ### The bytes of a field -/

theorem byteOf_tc (w : Nat) (n : Int) (k : Nat) : byteOf (tc (8 * w) n) k = valueByte w n k := by
  apply BitVec.eq_of_toNat_eq
  rw [byteOf, valueByte, BitVec.toNat_ofNat, BitVec.extractLsb'_toNat, BitVec.toNat_ofInt, tc]
  norm_cast

theorem encodedBytes_eq_bytes (P : Config) (f : Field) (n : Int) :
    encodedBytes (formatOf P f.signed) (f.tid P) f.width n = f.bytes P n := by
  have hlen : f.width + 1 < 32 := by have := f.width_le_three; omega
  have hvalue : leBytes (tc (8 * f.width) n) f.width = (List.range f.width).map (valueByte f.width n) :=
    List.map_congr_left fun k _ => byteOf_tc f.width n k
  rw [encodedBytes, Field.bytes, hdrByte0_ofNat_eq_headerByte _ hlen, hvalue]

theorem Field.bytes_length (P : Config) (f : Field) (n : Int) : (f.bytes P n).length = 2 + f.width := by
  rw [← encodedBytes_eq_bytes, encodedBytes_length]

/-- The declared length can be read back from byte 0 (40_header_writer.md R80). -/
theorem headerByte_plen (fmt : BitVec 3) {plen : Nat} (h : plen < 32) :
    ((headerByte fmt plen).extractLsb' 0 5).toNat = plen := by
  rw [← hdrByte0_ofNat_eq_headerByte fmt h, hdrByte0_eq_append, BitVec.extractLsb'_append_eq_right]
  exact Nat.mod_eq_of_lt h

theorem need_fieldCommand (f : Field) (off cap : Nat) (val : BitVec 32) :
    need (f.command off cap val) = 2 + f.width := by
  cases f <;> rfl

/-! ### The answers of a field encoder -/

variable {f : Field} {off cap : Nat} {val : BitVec 32} {n : Int} {s t : State}

theorem exec_fieldCommand_of_cap_gt (h : cap > s.cfg.bufSize) :
    exec (f.command off cap val) s = .next { s with res := 0xFD } := by
  rw [exec_fieldCommand]
  exact encodeField_illegal h

theorem Field.converted_eq_none_iff : f.converted val = none ↔ ¬ ∃ n, f.Accepts val n := by
  simp only [Option.eq_none_iff_forall_ne_some, ne_eq, Field.converted_eq_some_iff, not_exists]

theorem exec_fieldCommand_of_short (hcap : cap ≤ s.cfg.bufSize) (h : f.Accepts val n)
    (hshort : cap < off + 2 + f.width) :
    exec (f.command off cap val) s = .next { s with res := 0xFF } := by
  rw [exec_fieldCommand, Field.converted_eq_some_iff.2 h]
  exact encodeField_short hcap (by omega)

theorem read_header_of_fieldCommand_success (h : exec (f.command off cap val) s = .next t)
    (hok : resFailed t.res = false) :
    t.res = countCode (2 + f.width) ∧
      t.buf.read off = some (headerByte (formatOf s.cfg f.signed) (f.width + 1)) := by
  rw [exec_fieldCommand] at h
  have hw := f.width_le_three
  obtain ⟨hbyte0, -⟩ := read_header_of_encodeField_success h hok (by omega)
  obtain ⟨n, -, rfl⟩ := eq_of_encodeField_success h hok
  exact ⟨rfl, hbyte0⟩

/-- Settles O29: the checks of `EncodeField` in order, then the bytes of the field at OFF. -/
theorem fieldEncodersFollowEncodeField : Obligations.FieldEncodersFollowEncodeField := by
  refine fun f off cap val s => ⟨exec_fieldCommand_of_cap_gt, fun hcap hnone => ?_,
    fun hcap ⟨_, hacc⟩ hshort => exec_fieldCommand_of_short hcap hacc hshort, fun n hcap hacc hfit => ?_⟩
  · exact exec_fieldCommand_of_converted_none hcap (Field.converted_eq_none_iff.2 hnone)
  · refine ⟨_, exec_fieldCommand_of_accepts hcap hacc hfit, rfl, ?_⟩
    rw [encodedBytes_eq_bytes, ← f.bytes_length s.cfg n]
    exact ⟨holdsBytes_applyWrites off _ _ s, unchangedOutside_applyWrites off _ _ s⟩

/-- Settles O31: the count is `2 + w`, and byte 0 declares `w + 1`. -/
theorem countIsDeclaredLengthPlusOne : Obligations.CountIsDeclaredLengthPlusOne := by
  intro f off cap val s t h hok
  obtain ⟨hres, hbyte0⟩ := read_header_of_fieldCommand_success h hok
  have hw := f.width_le_three
  have hcount : t.res.toNat = 2 + f.width := by rw [hres, countCode_toNat (by omega)]
  refine ⟨_, hbyte0, ?_, hcount⟩
  rw [hcount, headerByte_plen _ (by omega)]
  omega

/-- Settles O33: `need` is `2 + w`, so the capacity check passes at exact fit and fails one byte below. -/
theorem boundaryOfTheWindow : Obligations.BoundaryOfTheWindow := by
  intro f off cap val n s hacc hcap
  have hw := f.width_le_three
  rw [need_fieldCommand]
  refine ⟨fun hfit => ?_, fun hshort => exec_fieldCommand_of_short hcap hacc (by omega)⟩
  exact ⟨_, exec_fieldCommand_of_accepts hcap hacc (by omega), countCode_toNat (by omega),
    resFailed_countCode (by omega)⟩

end Sys2Proof.Machine
end

section
/-! PROOFS. Failures (60_exceptions.md R141 to R143): the checks in their order, with success where none fails, and
the value of RES each outcome leaves. -/

namespace Sys2Proof.Machine

/-! ### The checks in order -/

variable {i : Instr} {s : State} {f : Field} {off cap : Nat} {val : BitVec 32}

theorem cap_le_of_not_cmdCause {P : Config} (h : ¬ CmdCause P i) : i.cap ≤ P.bufSize :=
  not_lt.1 fun hcap => h (.inl hcap)

theorem exists_accepts_of_not_rangeCause (h : ¬ RangeCause (f.command off cap val)) : ∃ n, f.Accepts val n :=
  not_not.1 fun hnone => h ⟨f, off, cap, val, rfl, hnone⟩

theorem Field.cap_command (f : Field) (off cap : Nat) (val : BitVec 32) : (f.command off cap val).cap = cap := by
  cases f <;> rfl

theorem exec_of_rangeCause (hcap : i.cap ≤ s.cfg.bufSize) (h : RangeCause i) :
    exec i s = .next { s with res := 0xFE } := by
  obtain ⟨f, off, cap, val, rfl, hnone⟩ := h
  rw [f.cap_command] at hcap
  exact exec_fieldCommand_of_converted_none hcap (Field.converted_eq_none_iff.2 hnone)

/-- What the capacity check decides once no other check fails: ERR_CAP, or the count of a success in RES
(20_memory.md R46). -/
def CapCheckDecides (i : Instr) (s : State) : Prop :=
  (CapCause i → exec i s = .next { s with res := 0xFF }) ∧
  (¬ CapCause i → ∃ t, exec i s = .next t ∧ t.res = countCode (need i))

theorem capCheckDecides_wrHdr {sgn : Bool} {dlen : Nat} {tid : Byte}
    (h : ¬ CmdCause s.cfg (.wrHdr off cap sgn dlen tid)) :
    CapCheckDecides (.wrHdr off cap sgn dlen tid) s := by
  have hcap : cap ≤ s.cfg.bufSize := cap_le_of_not_cmdCause h
  have hdlen : ¬ (dlen < 1 ∨ dlen > 3) := fun hbad => h (.inr ⟨off, cap, sgn, dlen, tid, rfl, hbad⟩)
  obtain ⟨hlo, hhi⟩ : 1 ≤ dlen ∧ dlen ≤ 3 := by omega
  exact ⟨execWrHdr_short hcap hlo hhi, fun hfit => ⟨_, execWrHdr_ok hcap hlo hhi (not_lt.1 hfit), rfl⟩⟩

theorem capCheckDecides_fieldCommand (hcap : cap ≤ s.cfg.bufSize)
    (h : ¬ RangeCause (f.command off cap val)) : CapCheckDecides (f.command off cap val) s := by
  obtain ⟨n, hacc⟩ := exists_accepts_of_not_rangeCause h
  have hcause : CapCause (f.command off cap val) ↔ cap < off + 2 + f.width := by
    cases f <;> rfl
  rw [CapCheckDecides, hcause, need_fieldCommand]
  exact ⟨exec_fieldCommand_of_short hcap hacc,
    fun hfit => ⟨_, exec_fieldCommand_of_accepts hcap hacc (not_lt.1 hfit), rfl⟩⟩

theorem capCheckDecides (hcmd : ¬ CmdCause s.cfg i) (hrange : ¬ RangeCause i) : CapCheckDecides i s := by
  have hcap : i.cap ≤ s.cfg.bufSize := cap_le_of_not_cmdCause hcmd
  cases i with
  | wrHdr => exact capCheckDecides_wrHdr hcmd
  | wrLe1 | wrLe2 | wrLe3 =>
    exact ⟨writeScalar_short hcap, fun hfit => ⟨_, writeScalar_ok hcap (not_lt.1 hfit), rfl⟩⟩
  | encPacketId => exact capCheckDecides_fieldCommand (f := .packetId) hcap hrange
  | encTemperature => exact capCheckDecides_fieldCommand (f := .temperature) hcap hrange
  | encHumidity => exact capCheckDecides_fieldCommand (f := .humidity) hcap hrange
  | encBattery => exact capCheckDecides_fieldCommand (f := .battery) hcap hrange
  | encPressure => exact capCheckDecides_fieldCommand (f := .pressure) hcap hrange

/-- Settles O43: an illegal word is rejected by `decode`; CAP and DLEN are tested first, then the operand of a field
encoder, and the capacity check decides the rest. -/
theorem failureCausesAndPriority : Obligations.FailureCausesAndPriority := by
  refine fun c s => ⟨fun why hc => runCommand_of_illegal hc s, fun i hc => ?_⟩
  rw [runCommand_of_command hc]
  exact ⟨exec_of_cmdCause, fun hcmd => exec_of_rangeCause (cap_le_of_not_cmdCause hcmd),
    fun hcmd hrange => (capCheckDecides hcmd hrange).1, fun hcmd hrange => (capCheckDecides hcmd hrange).2⟩

/-! ### The values of RES -/

/-- What a word can answer: one failure in RES alone, or the `need` bytes of its command at OFF with their count in
RES. -/
theorem runCommand_cases (c : Word) (s : State) :
    (∃ e : Failure, runCommand c s = .next (s.raise e)) ∨
    ∃ (i : Instr) (bytes : List Byte), decode c = .command i ∧ bytes.length = need i ∧
      runCommand c s =
        .next { s with buf := s.buf.applyWrites (portWrites i.off bytes), res := countCode (need i) } := by
  cases hc : decode c with
  | illegal why => exact .inl ⟨.cmd, runCommand_of_illegal hc s⟩
  | command i =>
    rw [runCommand_of_command hc]
    exact (exec_cases i s).imp_right fun ⟨bytes, hok⟩ => ⟨i, bytes, rfl, hok⟩

theorem one_le_need (i : Instr) : 1 ≤ need i := by
  cases i <;> simp [need]

/-- A byte count below 128 reads as itself (00_scope.md R9, 10_state.md R26). -/
theorem resSigned_countCode {n : Nat} (h : n < 128) : resSigned (countCode n) = n := by
  rw [resSigned, countCode_toNat (by omega), if_pos h]

/-- Settles O44: a raised failure has one of the three codes, and the count of a success is `need`, from 1 to 5. -/
theorem resultCodes : Obligations.ResultCodes := by
  intro c s t h
  obtain ⟨e, hfail⟩ | ⟨i, bytes, hc, hlen, hok⟩ := runCommand_cases c s
  · rw [hfail] at h
    cases h
    cases e with
    | cap => exact .inl ⟨rfl, rfl, resFailed_code .cap⟩
    | range => exact .inr (.inl ⟨rfl, rfl, resFailed_code .range⟩)
    | cmd => exact .inr (.inr (.inl ⟨rfl, rfl, resFailed_code .cmd⟩))
  · rw [hok] at h
    cases h
    have hlo := one_le_need i
    have hhi := need_le_five i
    refine .inr (.inr (.inr ⟨i, hc, resSigned_countCode (by omega), hlo, hhi, resFailed_countCode (by omega), ?_⟩))
    rw [← hlen]
    exact ⟨fun k hk => (holdsBytes_applyWrites i.off bytes _ s).isSome_read hk,
      unchangedOutside_applyWrites i.off bytes _ s⟩

end Sys2Proof.Machine
end

section
/-! PROOFS. Encoding and decoding are inverse to each other on well-formed commands (30_encoding.md R61 to R67), and
the rows of the opcode table are disjoint (30_encoding.md R63). -/

namespace Sys2Proof

/-- The support family `Laws.Fields`, for a command as a variable. -/
theorem fields_encode (i : Instr) : Laws.Fields.Statement i := by
  cases i with
  | wrHdr => exact Laws.Fields.wrHdr _ _ _ _ _
  | wrLe1 => exact Laws.Fields.wrLe1 _ _ _
  | wrLe2 => exact Laws.Fields.wrLe2 _ _ _
  | wrLe3 => exact Laws.Fields.wrLe3 _ _ _
  | encPacketId => exact Laws.Fields.encPacketId _ _ _
  | encTemperature => exact Laws.Fields.encTemperature _ _ _
  | encHumidity => exact Laws.Fields.encHumidity _ _ _
  | encBattery => exact Laws.Fields.encBattery _ _ _
  | encPressure => exact Laws.Fields.encPressure _ _ _

theorem decode_encode_wrHdr {off cap dlen : Nat} {sgn : Bool} {tid : Byte}
    (h : (Instr.wrHdr off cap sgn dlen tid).wellFormed = true) :
    decode (encode (.wrHdr off cap sgn dlen tid)) = .command (.wrHdr off cap sgn dlen tid) := by
  obtain ⟨hop, hoff, hcap, -⟩ := fields_encode _ h
  have hdlen : dlen < 256 := by
    simp only [Instr.wellFormed, Bool.and_eq_true, decide_eq_true_eq] at h
    exact h.2
  rw [decode_wrHdr hop (rsvdField_packHdr ..), hoff, hcap, encode]
  simp only [Instr.val, sgnField_packHdr, dlenField_packHdr _ _ _ _ _ _ hdlen, tidField_packHdr]
  rfl

/-- Settles O1: `decode` takes the row of the packed OP and reads the packed operands back. -/
theorem decodeEncodeRoundTrip : Obligations.DecodeEncodeRoundTrip := by
  intro i h
  obtain ⟨hop, hoff, hcap, hval⟩ := fields_encode i h
  cases i with
  | wrHdr => exact decode_encode_wrHdr h
  | wrLe1 => rw [decode_wrLe1 hop, hoff, hcap, hval]; rfl
  | wrLe2 => rw [decode_wrLe2 hop, hoff, hcap, hval]; rfl
  | wrLe3 => rw [decode_wrLe3 hop, hoff, hcap, hval]; rfl
  | encPacketId => rw [decode_encPacketId hop, hoff, hcap, hval]; rfl
  | encTemperature => rw [decode_encTemperature hop, hoff, hcap, hval]; rfl
  | encHumidity => rw [decode_encHumidity hop, hoff, hcap, hval]; rfl
  | encBattery => rw [decode_encBattery hop, hoff, hcap, hval]; rfl
  | encPressure => rw [decode_encPressure hop, hoff, hcap, hval]; rfl

variable {c : Word} {i : Instr}

/-- What `decode_of_isCommandWord` says of some command, said of the one the word decodes to. -/
theorem fields_of_decode (h : decode c = .command i) :
    i.op = opField c ∧ i.off = offField c ∧ i.cap = capField c ∧ i.val = valField c := by
  obtain ⟨j, hj, hfields⟩ := decode_of_isCommandWord (exists_command_iff.1 ⟨i, h⟩)
  obtain rfl : j = i := by simpa [h] using hj.symm
  exact hfields

theorem dlen_lt_of_decode {off cap dlen : Nat} {sgn : Bool} {tid : Byte}
    (h : decode c = .command (.wrHdr off cap sgn dlen tid)) : dlen < 256 := by
  obtain ⟨hop, -⟩ := fields_of_decode h
  obtain ⟨-, hrsvd⟩ := exists_command_iff.1 ⟨_, h⟩
  rw [decode_wrHdr hop.symm (hrsvd hop.symm)] at h
  cases h
  exact dlenField_lt c

theorem wellFormed_of_decode (h : decode c = .command i) : i.wellFormed = true := by
  obtain ⟨-, hoff, hcap, -⟩ := fields_of_decode h
  have hoff_lt : i.off < 4096 := hoff ▸ offField_lt c
  have hcap_lt : i.cap < 4096 := hcap ▸ capField_lt c
  cases i with
  | wrHdr =>
    simp only [Instr.wellFormed, Bool.and_eq_true, decide_eq_true_eq]
    exact ⟨⟨hoff_lt, hcap_lt⟩, dlen_lt_of_decode h⟩
  | wrLe1 | wrLe2 | wrLe3 | encPacketId | encTemperature | encHumidity | encBattery | encPressure =>
    simp only [Instr.wellFormed, Bool.and_eq_true, decide_eq_true_eq]
    exact ⟨hoff_lt, hcap_lt⟩

/-- Settles O2: a word is its four fields side by side, and they are those of the command it decodes to. -/
theorem encodeDecodeRoundTrip : Obligations.EncodeDecodeRoundTrip := by
  intro c i h
  refine ⟨wellFormed_of_decode h, ?_⟩
  obtain ⟨hop, hoff, hcap, hval⟩ := fields_of_decode h
  rw [encode, hop, hoff, hcap, hval, packWord_fields]

theorem opcodeTable_ops_distinct :
    opcodeTable.Pairwise fun r q => opField r.pattern ≠ opField q.pattern := by
  decide

/-- OP alone names the row of a command. -/
theorem mnemonic_of_op {r : OpcodeRow} (hr : r ∈ opcodeTable) (h : i.op = opField r.pattern) :
    i.mnemonic = r.mnemonic := by
  have hrows : ∀ q ∈ opcodeTable, i.op = opField q.pattern → i.mnemonic = q.mnemonic := by
    cases i <;> simp only [Instr.op, Instr.mnemonic] <;> decide
  exact hrows r hr h

/-- Settles O4: a word a row admits has that row's OP, and the OPs of the rows are distinct. -/
theorem opcodeRowsDisjoint : Obligations.OpcodeRowsDisjoint := by
  constructor
  · refine opcodeTable_ops_distinct.imp_of_mem fun hr hq hne c ⟨hrc, hqc⟩ => hne ?_
    rw [← opField_of_admits c hr hrc, ← opField_of_admits c hq hqc]
  · intro c r hr hrc
    obtain ⟨i, hi, hop, -⟩ := decode_of_isCommandWord (exists_row_admits_iff.1 ⟨r, hr, hrc⟩)
    exact ⟨i, hi, mnemonic_of_op hr (hop.trans (opField_of_admits c hr hrc))⟩

/-- Settles O5: five words of the opcode map, each decoded by evaluation. -/
theorem workedEncodingsDecode : Obligations.WorkedEncodingsDecode := by
  unfold Obligations.WorkedEncodingsDecode
  decide

end Sys2Proof
end

section
/-! PROOFS. Steps: each kind of move's answer (10_state.md R20, R21, R29), what every move keeps (10_state.md R26,
R30, 20_memory.md R40), and that a command writes inside its window and settles after one run (20_memory.md R46,
R48). -/

namespace Sys2Proof.Machine

variable {s t : State} {i : Instr}

/-! ### The equations of `step` -/

theorem step_of_no_moves (h : s.moves = []) : step s = .next s := by
  simp only [step, h]

theorem step_of_move {m : HostMove} {ms : List HostMove} (h : s.moves = m :: ms) :
    step s = runMove m { s with moves := ms } := by
  simp only [step, h]

theorem step_cases (h : step s = .next t) :
    t = s ∨ ∃ m ms, runMove m { s with moves := ms } = .next t := by
  cases hm : s.moves with
  | nil =>
    rw [step_of_no_moves hm] at h
    cases h
    exact .inl rfl
  | cons m ms => exact .inr ⟨m, ms, step_of_move hm ▸ h⟩

theorem step_of_issue {ms : List HostMove} {c : Word} (hc : decode c = .command i)
    (hm : s.moves = .issue c :: ms) : step s = exec i { s with moves := ms } := by
  rw [step_of_move hm, runMove, runCommand_of_command hc]

/-- Settles O8: the step issues the word, and an encoded command decodes to itself. -/
theorem stepRunsDecodedCommand : Obligations.StepRunsDecodedCommand :=
  fun _ _ i => ⟨fun _ => step_of_issue, fun hwf => step_of_issue (decodeEncodeRoundTrip i hwf)⟩

/-- Settles O9: with an empty list of moves `step` takes its first branch. -/
theorem idleStepChangesNothing : Obligations.IdleStepChangesNothing :=
  fun _ => step_of_no_moves

/-! ### Reads and reset -/

theorem hostReadBuf_of_read {a : Nat} {v : Byte} (ha : a < s.cfg.bufSize) (h : s.buf.read a = some v) :
    hostReadBuf a s = .next { s with seen := s.seen ++ [.buf a v] } := by
  simp only [hostReadBuf, ha, h, if_true]

theorem hostReadBuf_of_unwritten {a : Nat} (ha : a < s.cfg.bufSize) (h : s.buf.read a = none) :
    hostReadBuf a s = .fault (.unwrittenByte a) := by
  simp only [hostReadBuf, ha, h, if_true]

theorem hostReadBuf_of_outside {a : Nat} (ha : s.cfg.bufSize ≤ a) :
    hostReadBuf a s = .fault (.noSuchByte a) :=
  if_neg (not_lt.2 ha)

/-- Settles O10: one move's answer, for each move but the issue of a word. -/
theorem hostMovesAnswer : Obligations.HostMovesAnswer := by
  refine fun s ms => ⟨fun hm => ?_, fun a hm => ?_, fun cut hm => ?_⟩
  · rw [step_of_move hm]
    rfl
  · rw [step_of_move hm]
    exact ⟨fun ha v => hostReadBuf_of_read (s := { s with moves := ms }) ha,
      hostReadBuf_of_unwritten (s := { s with moves := ms }),
      hostReadBuf_of_outside (s := { s with moves := ms })⟩
  · rw [step_of_move hm]
    rfl

/-- Settles O11: reset leaves RES 0x00 and lists no byte of BUF, whatever was under way. -/
theorem resetLeavesResZeroAndBufWithoutValue : Obligations.ResetLeavesResZeroAndBufWithoutValue := by
  refine ⟨fun P a => ⟨rfl, rfl, rfl⟩, fun s cut => ⟨s.afterReset, rfl, rfl, rfl, fun a => ⟨rfl, fun ha => ?_⟩⟩⟩
  exact hostReadBuf_of_unwritten ha rfl

/-! ### What a command and a move can answer -/

theorem runCommand_eq_exec_or_raise (c : Word) :
    (∃ i, runCommand c = exec i) ∨ ∀ s, runCommand c s = .next (s.raise .cmd) := by
  cases hc : decode c with
  | illegal why => exact .inr (runCommand_of_illegal hc)
  | command i => exact .inl ⟨i, runCommand_of_command hc⟩

/-- `exec_cases`, with the window that a success has checked (20_memory.md R46). -/
theorem exec_next_cases (h : exec i s = .next t) :
    (∃ e : Failure, t = s.raise e) ∨
    ∃ bytes : List Byte, bytes.length = need i ∧ i.off + need i ≤ i.cap ∧ i.cap ≤ s.cfg.bufSize ∧
      t = { s with buf := s.buf.applyWrites (portWrites i.off bytes), res := countCode (need i) } := by
  obtain ⟨e, hfail⟩ | ⟨bytes, hlen, hfit, hcap, hok⟩ := exec_answersUniformly s.cfg i
  · rw [hfail s rfl] at h
    cases h
    exact .inl ⟨e, rfl⟩
  · rw [hok s rfl] at h
    cases h
    exact .inr ⟨bytes, hlen, hfit, hcap, rfl⟩

theorem exec_keeps_cfg (h : exec i s = .next t) : t.cfg = s.cfg := by
  obtain ⟨e, rfl⟩ | ⟨bytes, -, -, -, rfl⟩ := exec_next_cases h
  · rfl
  · rfl

/-- What a move can answer: what some command answers, ERR_CMD in RES, one more reading, or reset. -/
theorem runMove_next_cases {m : HostMove} (h : runMove m s = .next t) :
    (∃ i, exec i s = .next t) ∨ t = s.raise .cmd ∨ (∃ r, t = { s with seen := s.seen ++ [r] }) ∨
      t = s.afterReset := by
  cases m with
  | issue c =>
    obtain ⟨i, hi⟩ | hillegal := runCommand_eq_exec_or_raise c
    · exact .inl ⟨i, hi ▸ h⟩
    · cases (hillegal s).symm.trans h
      exact .inr (.inl rfl)
  | readRes =>
    cases h
    exact .inr (.inr (.inl ⟨_, rfl⟩))
  | readBuf a =>
    simp only [runMove, hostReadBuf] at h
    split at h
    · split at h
      · cases h
        exact .inr (.inr (.inl ⟨_, rfl⟩))
      · cases h
    · cases h
  | reset cut =>
    cases h
    exact .inr (.inr (.inr rfl))

/-- Settles O12: no move's answer has other parameters. -/
theorem stepKeepsParameters : Obligations.StepKeepsParameters := by
  intro s t h
  obtain rfl | ⟨m, ms, h⟩ := step_cases h
  · rfl
  · obtain ⟨i, hi⟩ | rfl | ⟨r, rfl⟩ | rfl := runMove_next_cases h
    · exact (exec_keeps_cfg hi :)
    · rfl
    · rfl
    · rfl

/-! ### The invariant -/

theorem code_mem_legalRes (e : Failure) : e.code ∈ legalRes := by
  cases e <;> decide

theorem countCode_mem_legalRes {n : Nat} (h : n ≤ 5) : countCode n ∈ legalRes := by
  interval_cases n <;> decide

theorem State.Inv.raise (h : s.Inv) (e : Failure) : (s.raise e).Inv := by
  obtain ⟨hcfg, hwf, hbounds, -⟩ := h
  exact ⟨hcfg, hwf, hbounds, code_mem_legalRes e⟩

theorem State.Inv.afterReset (h : s.Inv) : s.afterReset.Inv := by
  obtain ⟨hcfg, -⟩ := h
  exact ⟨hcfg, s.afterReset_wf, by simp, List.mem_cons_self⟩

theorem bounded_applyWrites {off size : Nat} {bytes : List Byte} {m : Memory} (hm : ∀ c ∈ m, c.1 < size)
    (hfit : off + bytes.length ≤ size) : ∀ c ∈ m.applyWrites (portWrites off bytes), c.1 < size := by
  intro c hc
  obtain hnew | hold := Memory.mem_applyWrites _ hc
  · obtain ⟨-, hlt⟩ := mem_portWrites bytes hnew
    omega
  · exact hm c hold

theorem exec_keeps_inv (hs : s.Inv) (h : exec i s = .next t) : t.Inv := by
  obtain ⟨e, rfl⟩ | ⟨bytes, hlen, hfit, hcap, rfl⟩ := exec_next_cases h
  · exact hs.raise e
  · obtain ⟨hcfg, hwf, hbounds, -⟩ := hs
    exact ⟨hcfg, Memory.wf_applyWrites _ hwf, bounded_applyWrites hbounds (hlen ▸ hfit.trans hcap),
      countCode_mem_legalRes (need_le_five i)⟩

theorem runMove_keeps_inv {m : HostMove} (hs : s.Inv) (h : runMove m s = .next t) : t.Inv := by
  obtain ⟨i, hi⟩ | rfl | ⟨r, rfl⟩ | rfl := runMove_next_cases h
  · exact exec_keeps_inv hs hi
  · exact hs.raise .cmd
  · exact hs
  · exact hs.afterReset

/-- Settles O13: taking the move from the list leaves the invariant as it is, and every move keeps it. -/
theorem stepKeepsInvariant : Obligations.StepKeepsInvariant := by
  intro s t hs h
  obtain rfl | ⟨m, ms, h⟩ := step_cases h
  · exact hs
  · have hs' : State.Inv { s with moves := ms } := hs
    exact runMove_keeps_inv hs' h

theorem inv_resetOf {P : Config} (h : P.Valid) : (State.resetOf P).Inv :=
  ⟨h, reset_buf_wf P, by simp [State.resetOf], List.mem_cons_self⟩

/-- Settles O14: at reset BUF lists no byte and RES is 0x00. -/
theorem resetMeetsInvariant : Obligations.ResetMeetsInvariant :=
  ⟨fun _ => inv_resetOf, inv_resetOf (by decide)⟩

/-! ### Inside the window, and once is enough -/

/-- Settles O46: a success has checked its window, and its writes reach no other address. -/
theorem writesOnlyInsideTheWindow : Obligations.WritesOnlyInsideTheWindow := by
  intro i s t a h hchanged
  obtain ⟨e, rfl⟩ | ⟨bytes, hlen, hfit, hcap, rfl⟩ := exec_next_cases h
  · exact absurd rfl hchanged
  · have hinside : ¬ (a < i.off ∨ i.off + bytes.length ≤ a) := fun hout =>
      hchanged (Memory.read_applyWrites_outside bytes i.off a s.buf hout)
    omega

theorem applyWrites_idempotent (off : Nat) (bytes : List Byte) {m : Memory} (h : Memory.wf m = true) :
    (m.applyWrites (portWrites off bytes)).applyWrites (portWrites off bytes) =
      m.applyWrites (portWrites off bytes) :=
  Memory.applyWrites_of_read bytes (Memory.wf_applyWrites _ h)
    fun k hk => Memory.read_applyWrites_inside bytes off k m hk

theorem exec_idempotent (hwf : Memory.wf s.buf = true) (h : exec i s = .next t) : exec i t = .next t := by
  have hcfg := exec_keeps_cfg h
  obtain ⟨e, hfail⟩ | ⟨bytes, -, -, -, hok⟩ := exec_answersUniformly s.cfg i
  · rw [hfail t hcfg]
    cases (hfail s rfl).symm.trans h
    rfl
  · rw [hok t hcfg]
    cases (hok s rfl).symm.trans h
    simp only [applyWrites_idempotent i.off bytes hwf]

/-- Settles O48: the same parameters give the same writes, and in canonical form writing them again changes
nothing. -/
theorem commandsAreIdempotent : Obligations.CommandsAreIdempotent := by
  intro c s t hwf h
  obtain ⟨i, hi⟩ | hillegal := runCommand_eq_exec_or_raise c
  · rw [hi] at h ⊢
    exact exec_idempotent hwf h
  · cases (hillegal s).symm.trans h
    exact hillegal _

end Sys2Proof.Machine
end

section
/-! PROOFS. Completion of each command (40_header_writer.md R81, 41_scalar_writer.md R91 to R93,
43_field_encoders.md R122 to R126): the bytes of a success at OFF, the count in RES, and the frame. -/

namespace Sys2Proof.Machine

variable {off cap : Nat} {val : BitVec 32} {s : State}

/-! ### WR_HDR and the scalar writers -/

/-- Settles O17: the two bytes of the header, and the frame of a two-byte write. -/
theorem wrHdrCompletes : Obligations.WrHdrCompletes := by
  intro off cap sgn dlen tid s hcap hlo hhi hfit
  have hexec : execWrHdr off cap sgn dlen tid s = _ := execWrHdr_ok hcap hlo hhi hfit
  obtain ⟨hbyte0, hbyte1⟩ := read_header_of_execWrHdr_success hexec (by decide : resFailed 0x02 = false)
  exact ⟨_, hexec, rfl, hbyte0, hbyte1, unchangedOutside_applyWrites off [_, tid] _ s⟩

theorem exists_next_of_scalarWriter {w : Nat} {mk : Nat → Nat → BitVec 32 → Instr}
    (hmem : (w, mk) ∈ scalarWriters) (val : BitVec 32) (hcap : cap ≤ s.cfg.bufSize) (hfit : off + w ≤ cap) :
    ∃ t, exec (mk off cap val) s = .next t ∧ t.res = countCode w ∧
      (∀ k, k < w → t.buf.read (off + k) = some (val.extractLsb' (8 * k) 8)) ∧ UnchangedOutside off w s t := by
  have hw : w ≤ 3 := width_le_three_of_mem_scalarWriters hmem
  have hwrite := writeScalar_ok (val := val) hcap hfit
  have hframe := unchangedOutside_applyWrites off (leBytes (rawOperand w val) w) (countCode w) s
  rw [leBytes_length] at hframe
  rw [exec_scalarWriter hmem]
  exact ⟨_, hwrite, rfl,
    fun k hk => read_of_writeScalar_success hwrite (resFailed_countCode (by omega)) hk, hframe⟩

theorem wrLe1_mem_scalarWriters : (1, Instr.wrLe1) ∈ scalarWriters := by simp [scalarWriters]

theorem wrLe2_mem_scalarWriters : (2, Instr.wrLe2) ∈ scalarWriters := by simp [scalarWriters]

theorem wrLe3_mem_scalarWriters : (3, Instr.wrLe3) ∈ scalarWriters := by simp [scalarWriters]

/-- Settles O18: the one byte of `VAL[7:0]`. -/
theorem wrLe1Completes : Obligations.WrLe1Completes := by
  intro off cap val s hcap hfit
  obtain ⟨t, hexec, hres, hbytes, hframe⟩ := exists_next_of_scalarWriter wrLe1_mem_scalarWriters val hcap hfit
  exact ⟨t, hexec, hres, hbytes 0 (by decide), hframe⟩

/-- Settles O19: two bytes, low byte first. -/
theorem wrLe2Completes : Obligations.WrLe2Completes := by
  intro off cap val s hcap hfit
  obtain ⟨t, hexec, hres, hbytes, hframe⟩ := exists_next_of_scalarWriter wrLe2_mem_scalarWriters val hcap hfit
  exact ⟨t, hexec, hres, hbytes 0 (by decide), hbytes 1 (by decide), hframe⟩

/-- Settles O20: three bytes, low byte first. -/
theorem wrLe3Completes : Obligations.WrLe3Completes := by
  intro off cap val s hcap hfit
  obtain ⟨t, hexec, hres, hbytes, hframe⟩ := exists_next_of_scalarWriter wrLe3_mem_scalarWriters val hcap hfit
  exact ⟨t, hexec, hres, hbytes 0 (by decide), hbytes 1 (by decide), hbytes 2 (by decide), hframe⟩

/-! ### Reading a scalar back -/

theorem byteOf_zero_toNat (v : Nat) : (byteOf v 0).toNat = v % 256 := rfl

theorem byteOf_succ (v k : Nat) : byteOf v (k + 1) = byteOf (v / 256) k := by
  rw [byteOf_eq_div, byteOf_eq_div, Nat.mul_succ, Nat.add_comm, Nat.pow_add, ← Nat.div_div_eq_div_mul]

/-- `MemRead` inverts the little-endian list: byte 0 is `v % 256`, and the others are the bytes of `v / 256`. -/
theorem Memory.memRead_of_read_byteOf {m : Memory} {w : Nat} :
    ∀ {a v : Nat}, (∀ k, k < w → m.read (a + k) = some (byteOf v k)) →
      m.memRead a w = some (v % 2 ^ (8 * w)) := by
  induction w with
  | zero =>
    intro a v _
    rw [Nat.mul_zero, Nat.pow_zero, Nat.mod_one, Memory.memRead]
  | succ w ih =>
    intro a v h
    have hlo : m.read a = some (byteOf v 0) := h 0 w.succ_pos
    have hhi : m.memRead (a + 1) w = some (v / 256 % 2 ^ (8 * w)) := by
      refine ih fun k hk => ?_
      rw [← byteOf_succ, ← h (k + 1) (Nat.succ_lt_succ hk), Nat.add_right_comm, Nat.add_assoc]
    have hsplit : v % 2 ^ (8 * (w + 1)) = v % 256 + 256 * (v / 256 % 2 ^ (8 * w)) := by
      rw [Nat.mul_succ, Nat.add_comm, Nat.pow_add]
      exact Nat.mod_mul
    simp only [Memory.memRead, hlo, hhi, byteOf_zero_toNat, hsplit]

/-- Settles O28: the writer leaves the little-endian bytes of the raw operand, and `MemRead` inverts them. -/
theorem scalarReadBack : Obligations.ScalarReadBack := by
  intro w mk hmem off cap val s hcap hfit
  have hw : w ≤ 3 := width_le_three_of_mem_scalarWriters hmem
  obtain ⟨t, hexec, hres, hbytes, -⟩ := exists_next_of_scalarWriter hmem val hcap hfit
  refine ⟨t, hexec, by rw [hres, resFailed_countCode (by omega)], ?_⟩
  have hread : t.buf.memRead off w = some (rawOperand w val % 2 ^ (8 * w)) :=
    Memory.memRead_of_read_byteOf fun k hk => by rw [hbytes k hk, byteOf_rawOperand hk]
  rw [hread, rawOperand, Nat.mod_mod]

/-! ### The five field encoders -/

/-- The clause of `FieldEncodersFollowEncodeField` on success, byte by byte. -/
theorem exists_next_of_field {f : Field} {n : Int} (hcap : cap ≤ s.cfg.bufSize) (hacc : f.Accepts val n)
    (hfit : off + 2 + f.width ≤ cap) :
    ∃ t, exec (f.command off cap val) s = .next t ∧ t.res = countCode (2 + f.width) ∧
      t.buf.read off = some (headerByte (formatOf s.cfg f.signed) (f.width + 1)) ∧
      t.buf.read (off + 1) = some (f.tid s.cfg) ∧
      (∀ k, k < f.width → t.buf.read (off + 2 + k) = some (valueByte f.width n k)) ∧
      UnchangedOutside off (2 + f.width) s t := by
  obtain ⟨-, -, -, hok⟩ := fieldEncodersFollowEncodeField f off cap val s
  obtain ⟨t, hexec, hres, hholds, hframe⟩ := hok n hcap hacc hfit
  obtain ⟨hbyte0, hbyte1⟩ := hholds.read_header
  refine ⟨t, hexec, hres, hbyte0, hbyte1, fun k hk => ?_, hframe⟩
  have hlt : 2 + k < (f.bytes s.cfg n).length := by rw [Field.bytes_length]; omega
  rw [Nat.add_assoc, hholds (2 + k) hlt]
  simp [Field.bytes, Nat.add_comm 2 k]

/-- A value that fits its width is its own pattern, so its bytes are those of the number. -/
theorem valueByte_natCast {w n : Nat} (h : n < 2 ^ (8 * w)) (k : Nat) :
    valueByte w n k = BitVec.ofNat 8 (n / 2 ^ (8 * k)) := by
  have htc : tc (8 * w) n = n := by
    zify
    rw [tc_cast]
    exact Int.emod_eq_of_lt (by positivity) (by exact_mod_cast h)
  rw [← byteOf_tc, htc, byteOf_eq_div]

theorem ofNat_byte_mod (n : Nat) : BitVec.ofNat 8 (n % 256) = BitVec.ofNat 8 n :=
  BitVec.eq_of_toNat_eq (by simp only [BitVec.toNat_ofNat]; omega)

theorem valueBytes_of_le_65535 {n : Nat} (h : n ≤ 65535) :
    valueByte 2 n 0 = BitVec.ofNat 8 (n % 256) ∧ valueByte 2 n 1 = BitVec.ofNat 8 (n / 256) := by
  rw [valueByte_natCast (by omega), valueByte_natCast (by omega), ofNat_byte_mod]
  exact ⟨congrArg _ n.div_one, rfl⟩

theorem valueBytes_of_le_16777215 {n : Nat} (h : n ≤ 16777215) :
    valueByte 3 n 0 = BitVec.ofNat 8 (n % 256) ∧ valueByte 3 n 1 = BitVec.ofNat 8 (n / 256 % 256) ∧
      valueByte 3 n 2 = BitVec.ofNat 8 (n / 65536) := by
  rw [valueByte_natCast (by omega), valueByte_natCast (by omega), valueByte_natCast (by omega), ofNat_byte_mod,
    ofNat_byte_mod]
  exact ⟨congrArg _ n.div_one, rfl, rfl⟩

/-- Settles O21: the packet id is its own scaled value, and the low byte of VAL its one value byte. -/
theorem encPacketIdCompletes : Obligations.EncPacketIdCompletes := by
  intro off cap val s hcap hval hfit
  obtain ⟨t, hexec, hres, hbyte0, hbyte1, hvalue, hframe⟩ :=
    exists_next_of_field hcap (accepts_packetId_of_le hval) hfit
  have hbyte : valueByte 1 val.toNat 0 = val.extractLsb' 0 8 := by
    rw [valueByte_natCast (by omega)]
    exact BitVec.eq_of_toNat_eq (by simp)
  exact ⟨t, hexec, hres, hbyte0, hbyte1, hbyte ▸ hvalue 0 (by decide), hframe⟩

/-- Settles O22: the value bytes are those of the two's-complement pattern by definition. -/
theorem encTemperatureCompletes : Obligations.EncTemperatureCompletes := by
  intro off cap val n s hcap hscaled hlo hhi hfit
  have hacc : Field.temperature.Accepts val n := ⟨hscaled, hlo, hhi⟩
  obtain ⟨t, hexec, hres, hbyte0, hbyte1, hvalue, hframe⟩ := exists_next_of_field hcap hacc hfit
  exact ⟨t, hexec, hres, hbyte0, hbyte1, hvalue 0 (by decide), hvalue 1 (by decide), hframe⟩

/-- The two unsigned fields of two value bytes differ in their identifier and scale alone. -/
theorem exists_next_of_twoByteField {f : Field} {n : Nat} (hwidth : f.width = 2) (hcap : cap ≤ s.cfg.bufSize)
    (hacc : f.Accepts val n) (hhi : n ≤ 65535) (hfit : off + 4 ≤ cap) :
    ∃ t, exec (f.command off cap val) s = .next t ∧ t.res = 0x04 ∧
      t.buf.read off = some (headerByte (formatOf s.cfg f.signed) 3) ∧
      t.buf.read (off + 1) = some (f.tid s.cfg) ∧
      t.buf.read (off + 2) = some (BitVec.ofNat 8 (n % 256)) ∧
      t.buf.read (off + 3) = some (BitVec.ofNat 8 (n / 256)) ∧ UnchangedOutside off 4 s t := by
  have hroom : off + 2 + f.width ≤ cap := by rw [hwidth]; exact hfit
  obtain ⟨t, hexec, hres, hbyte0, hbyte1, hvalue, hframe⟩ := exists_next_of_field hcap hacc hroom
  rw [hwidth] at hres hbyte0 hvalue hframe
  obtain ⟨hlow, hhigh⟩ := valueBytes_of_le_65535 hhi
  exact ⟨t, hexec, hres, hbyte0, hbyte1, hlow ▸ hvalue 0 (by decide), hhigh ▸ hvalue 1 (by decide), hframe⟩

/-- Settles O23: humidity is a two-byte unsigned field, scaled by 100. -/
theorem encHumidityCompletes : Obligations.EncHumidityCompletes :=
  fun _ _ _ n _ hcap hscaled hhi => exists_next_of_twoByteField (f := .humidity) rfl hcap
    ⟨hscaled, n.cast_nonneg, Int.ofNat_le.2 hhi⟩ hhi

/-- Settles O24: battery is a two-byte unsigned field, unscaled. -/
theorem encBatteryCompletes : Obligations.EncBatteryCompletes :=
  fun _ _ _ n _ hcap hscaled hhi => exists_next_of_twoByteField (f := .battery) rfl hcap
    ⟨hscaled, n.cast_nonneg, Int.ofNat_le.2 hhi⟩ hhi

/-- Settles O25: the three bytes of a number below 2^24. -/
theorem encPressureCompletes : Obligations.EncPressureCompletes := by
  intro off cap val n s hcap hscaled hhi hfit
  have hacc : Field.pressure.Accepts val n := ⟨hscaled, n.cast_nonneg, Int.ofNat_le.2 hhi⟩
  obtain ⟨t, hexec, hres, hbyte0, hbyte1, hvalue, hframe⟩ := exists_next_of_field hcap hacc hfit
  obtain ⟨hlow, hmid, hhigh⟩ := valueBytes_of_le_16777215 hhi
  exact ⟨t, hexec, hres, hbyte0, hbyte1, hlow ▸ hvalue 0 (by decide), hmid ▸ hvalue 1 (by decide),
    hhigh ▸ hvalue 2 (by decide), hframe⟩

end Sys2Proof.Machine
end

section
/-! PROOFS. Headers read back (40_header_writer.md R82), a field encoder beside its two primitives
(43_field_encoders.md R128, 40_header_writer.md R83), and fields packed by the host's rule (43_field_encoders.md
R129). -/

namespace Sys2Proof.Machine

variable {off cap : Nat} {s t : State}

/-! ### The header read back -/

/-- The format can be read back from byte 0, as `headerByte_plen` reads the length (40_header_writer.md R80). -/
theorem headerByte_fmt (fmt : BitVec 3) {plen : Nat} (h : plen < 32) :
    (headerByte fmt plen).extractLsb' 5 3 = fmt := by
  rw [← hdrByte0_ofNat_eq_headerByte fmt h, hdrByte0_eq_append, BitVec.extractLsb'_append_eq_left]

/-- Legal parameters give the two formats different codes (00_scope.md R6). -/
theorem formatOf_eq_fmtSigned_iff {P : Config} (hP : P.Valid) (sgn : Bool) :
    formatOf P sgn = P.fmtSigned ↔ sgn = true := by
  obtain ⟨-, -, hne⟩ := hP
  cases sgn with
  | true => simp [formatOf]
  | false => simpa [formatOf] using hne

theorem headerByte_reads_back {P : Config} (hP : P.Valid) (sgn : Bool) {plen : Nat} (h : plen < 32) :
    (headerByte (formatOf P sgn) plen).extractLsb' 5 3 = formatOf P sgn ∧
      ((headerByte (formatOf P sgn) plen).extractLsb' 0 5).toNat = plen ∧
      ((headerByte (formatOf P sgn) plen).extractLsb' 5 3 = P.fmtSigned ↔ sgn = true) := by
  rw [headerByte_fmt _ h, headerByte_plen _ h]
  exact ⟨rfl, rfl, formatOf_eq_fmtSigned_iff hP sgn⟩

/-- Settles O30: byte 0 of a written header is the format beside the length. -/
theorem headerRoundTrip : Obligations.HeaderRoundTrip := by
  intro off cap s t hP hok
  refine ⟨fun sgn dlen tid h => ?_, fun f val h => ?_⟩
  · obtain ⟨hdlen, -⟩ := eq_of_execWrHdr_success h hok
    obtain ⟨hbyte0, -⟩ := read_header_of_execWrHdr_success h hok
    exact ⟨_, hbyte0, headerByte_reads_back hP sgn (by omega)⟩
  · have hw := f.width_le_three
    obtain ⟨-, hbyte0⟩ := read_header_of_fieldCommand_success h hok
    exact ⟨_, hbyte0, headerByte_reads_back hP f.signed (by omega)⟩

/-! ### An encoder and its two primitives -/

theorem Field.one_le_width (f : Field) : 1 ≤ f.width := by
  cases f <;> decide

/-- The state that WR_HDR with the constants of a field leaves (40_header_writer.md R81). -/
def State.withFieldHeader (s : State) (f : Field) (off : Nat) : State :=
  { s with
    buf := s.buf.applyWrites (portWrites off [headerByte (formatOf s.cfg f.signed) (f.width + 1), f.tid s.cfg])
    res := 0x02 }

theorem exec_wrHdr_of_field (f : Field) (hcap : cap ≤ s.cfg.bufSize) (hfit : off + 2 ≤ cap) :
    exec (.wrHdr off cap f.signed f.width (f.tid s.cfg)) s = .next (s.withFieldHeader f off) := by
  have hw := f.width_le_three
  rw [State.withFieldHeader, ← hdrByte0_ofNat_eq_headerByte _ (by omega)]
  exact execWrHdr_ok hcap f.one_le_width hw hfit

/-- A pattern of `8 * w` bits passes through VAL unchanged (30_encoding.md R67). -/
theorem rawOperand_ofNat {w v : Nat} (hw : w ≤ 3) (h : v < 2 ^ (8 * w)) :
    rawOperand w (BitVec.ofNat 32 v) = v := by
  have h32 : v < 2 ^ 32 := h.trans_le (Nat.pow_le_pow_right (by decide) (by omega))
  rw [rawOperand, BitVec.toNat_ofNat, Nat.mod_eq_of_lt h32, Nat.mod_eq_of_lt h]

theorem leBytes_fieldValue (f : Field) (n : Int) :
    leBytes (rawOperand f.width (BitVec.ofNat 32 (tc (8 * f.width) n))) f.width =
      (List.range f.width).map (valueByte f.width n) := by
  rw [rawOperand_ofNat f.width_le_three (tc_lt _ n)]
  exact List.map_congr_left fun k _ => byteOf_tc f.width n k

/-- The bytes of a field are its header and then its value, so writing them in one go or in two is the same
(20_memory.md R48). -/
theorem applyWrites_fieldBytes (P : Config) (f : Field) (n : Int) (m : Memory) :
    m.applyWrites (portWrites off (f.bytes P n)) =
      (m.applyWrites (portWrites off [headerByte (formatOf P f.signed) (f.width + 1), f.tid P])).applyWrites
        (portWrites (off + 2) ((List.range f.width).map (valueByte f.width n))) := by
  rw [← Memory.applyWrites_append]
  exact congrArg (Memory.applyWrites · m) (portWrites_append [_, _] _ off)

/-- Settles O32: with room for the field, header and value are its bytes in two pieces; without it, WR_HDR has
written and the scalar writer fails, where the encoder's one check fails before any byte. -/
theorem encoderEqualsItsPrimitives : Obligations.EncoderEqualsItsPrimitives := by
  intro f mk off cap val n s hmem hacc hcap hhdr
  have hw := f.width_le_three
  have hfirst := exec_wrHdr_of_field f hcap hhdr
  have hcap₁ : cap ≤ (s.withFieldHeader f off).cfg.bufSize := hcap
  rcases lt_or_ge cap (off + 2 + f.width) with hshort | hfit
  · refine ⟨_, _, _, exec_fieldCommand_of_short hcap hacc hshort, hfirst,
      (exec_scalarWriter hmem ..).trans (writeScalar_short hcap₁ hshort),
      fun hfit => absurd hfit (not_le.2 hshort), fun _ => ⟨rfl, rfl, rfl, ?_⟩⟩
    exact holdsBytes_applyWrites off _ 0xFF s
  · refine ⟨_, _, _, exec_fieldCommand_of_accepts hcap hacc hfit, hfirst,
      (exec_scalarWriter hmem ..).trans (writeScalar_ok hcap₁ hfit), fun _ => ⟨?_, ?_, ?_⟩,
      fun hshort => absurd hshort (not_lt.2 hfit)⟩
    · simp only [encodedBytes_eq_bytes, leBytes_fieldValue, applyWrites_fieldBytes]
      rfl
    · simp only [countCode_toNat (show 2 + f.width < 256 by omega), countCode_toNat (show f.width < 256 by omega)]
      rfl
    · exact ⟨resFailed_countCode (by omega), (by decide : resFailed 0x02 = false), resFailed_countCode (by omega)⟩

/-! ### Packing -/

theorem exec_keeps_below {i : Instr} (h : exec i s = .next t) {a : Nat} (ha : a < i.off) :
    t.buf.read a = s.buf.read a := by
  by_contra hchanged
  obtain ⟨hoff, -⟩ := writesOnlyInsideTheWindow i s t a h hchanged
  omega

theorem nextOffset_of_failed {r : Byte} (h : resFailed r = true) (off : Nat) : nextOffset off r = off :=
  if_pos h

theorem nextOffset_countCode {k : Nat} (h : k < 128) (off : Nat) : nextOffset off (countCode k) = off + k := by
  rw [nextOffset, resFailed_countCode h, countCode_toNat (by omega)]
  rfl

/-- Settles O34: the host's rule moves OFF by `need` after a success and leaves it after a failure, and no command
writes below its OFF. -/
theorem packingKeepsEarlierFields : Obligations.PackingKeepsEarlierFields := by
  intro i j s t u hi hj hu
  have hbelow : ∀ a, a < j.off → u.buf.read a = t.buf.read a := fun a ha => exec_keeps_below hu ha
  have hneed := need_le_five i
  obtain ⟨e, rfl⟩ | ⟨bytes, hlen, -, -, rfl⟩ := exec_next_cases hi
  · have hfail : resFailed (s.raise e).res = true := resFailed_code e
    rw [nextOffset_of_failed hfail] at hj
    exact ⟨fun hok => absurd (hfail.symm.trans hok) (by decide), fun _ => ⟨hj, rfl⟩, hbelow,
      fun hok => absurd (hfail.symm.trans hok) (by decide)⟩
  · have hok : resFailed (countCode (need i)) = false := resFailed_countCode (by omega)
    rw [nextOffset_countCode (by omega)] at hj
    refine ⟨fun _ => hj, fun hfail => absurd (hok.symm.trans hfail) (by decide), hbelow, fun _ k hk => ?_⟩
    rw [hbelow (i.off + k) (by omega)]
    exact (holdsBytes_applyWrites i.off bytes _ s).isSome_read (by omega)

end Sys2Proof.Machine
end

section
/-! PROOFS. The conversion (42_fixed_point_conversion.md R106, R107, R110, R113): `trunc` and its bounds, the readings
a field accepts, the pattern of a value, and ScaleTrunc by exponent. -/

namespace Sys2Proof.Machine

/-! ### `trunc` (R102) -/

theorem truncQ_of_nonpos {y : ℚ} (h : y ≤ 0) : truncQ y = ⌈y⌉ := by
  have hneg := truncQ_of_nonneg (neg_nonneg.2 h)
  rwa [truncQ_neg, Int.floor_neg, neg_inj] at hneg

/-- Truncation moves toward zero, so it passes an upper bound that is not negative only with the next integer. -/
theorem truncQ_le_iff {y : ℚ} {b : ℤ} (hb : 0 ≤ b) : truncQ y ≤ b ↔ y < b + 1 := by
  rcases le_total y 0 with hy | hy
  · have hbQ : (0 : ℚ) ≤ b := by exact_mod_cast hb
    rw [truncQ_of_nonpos hy]
    exact iff_of_true ((Int.ceil_le.2 (by exact_mod_cast hy)).trans hb) (by linarith)
  · rw [truncQ_of_nonneg hy, ← Int.lt_add_one_iff, Int.floor_lt]
    push_cast
    rfl

theorem le_truncQ_iff {y : ℚ} {b : ℤ} (hb : b ≤ 0) : b ≤ truncQ y ↔ (b : ℚ) - 1 < y := by
  have h := truncQ_le_iff (y := -y) (neg_nonneg.2 hb)
  rw [truncQ_neg, neg_le_neg_iff] at h
  rw [h]
  push_cast
  constructor
  · intro hy
    linarith
  · intro hy
    linarith

theorem truncQ_mono : Monotone truncQ := by
  intro x y hxy
  rcases le_total 0 x with hx | hx
  · rw [truncQ_of_nonneg hx, truncQ_of_nonneg (hx.trans hxy)]
    exact Int.floor_le_floor hxy
  rcases le_total y 0 with hy | hy
  · rw [truncQ_of_nonpos hx, truncQ_of_nonpos hy]
    exact Int.ceil_le_ceil hxy
  · rw [truncQ_of_nonpos hx, truncQ_of_nonneg hy]
    exact (Int.ceil_le.2 (by exact_mod_cast hx)).trans (Int.floor_nonneg.2 hy)

theorem abs_truncQ (y : ℚ) : |truncQ y| = ⌊|y|⌋ := by
  have hfloor : 0 ≤ ⌊|y|⌋ := Int.floor_nonneg.2 (abs_nonneg y)
  rw [truncQ]
  split
  · rw [abs_neg, abs_of_nonneg hfloor]
  · exact abs_of_nonneg hfloor

theorem truncQ_intCast (k : ℤ) : truncQ (k : ℚ) = k := by
  rcases le_total 0 k with hk | hk
  · rw [truncQ_of_nonneg (by exact_mod_cast hk), Int.floor_intCast]
  · rw [truncQ_of_nonpos (by exact_mod_cast hk), Int.ceil_intCast]

/-! ### The readings a field accepts (R106) -/

variable {f : Field} {val : BitVec 32} {S : Nat}

/-- A field with a scale accepts the readings whose product lies strictly between the integers next to its range. -/
theorem Field.exists_accepts_iff (hf : f ≠ .packetId) :
    (∃ n, f.Accepts val n) ↔
      ∃ x, valueOf val = some x ∧ (f.lo : ℚ) - 1 < x * (f.scale : ℚ) ∧ x * (f.scale : ℚ) < f.hi + 1 := by
  simp only [Field.Accepts, Field.scaled_eq_scaleTrunc hf, scaleTrunc_eq_map_truncQ, Option.map_eq_some_iff,
    ← le_truncQ_iff f.lo_nonpos, ← truncQ_le_iff f.hi_nonneg]
  constructor
  · rintro ⟨n, ⟨x, hx, rfl⟩, hrange⟩
    exact ⟨x, hx, hrange⟩
  · rintro ⟨x, hx, hrange⟩
    exact ⟨_, ⟨x, hx, rfl⟩, hrange⟩

theorem exists_accepts_packetId_iff : (∃ n, Field.packetId.Accepts val n) ↔ val.toNat ≤ 255 := by
  refine ⟨fun ⟨n, hscaled, _, hhi⟩ => ?_, fun h => ⟨_, accepts_packetId_of_le h⟩⟩
  have hn : (val.toNat : Int) = n := Option.some.inj hscaled
  have hn255 : n ≤ 255 := hhi
  omega

/-- A field's interval of products, divided by its scale. -/
theorem Field.exists_accepts_iff_of_bounds (hf : f ≠ .packetId) {a b : ℚ}
    (ha : (f.lo : ℚ) - 1 = a * (f.scale : ℚ)) (hb : (f.hi : ℚ) + 1 = b * (f.scale : ℚ)) :
    (∃ n, f.Accepts val n) ↔ ∃ x, valueOf val = some x ∧ a < x ∧ x < b := by
  have hscale : (0 : ℚ) < f.scale := by
    cases f <;> norm_num [Field.scale]
  simp only [Field.exists_accepts_iff hf, ha, hb, mul_lt_mul_iff_left₀ hscale]

/-- Settles O37: each field's interval is its range widened to the next integers, divided by its scale. -/
theorem acceptedReadings : Obligations.AcceptedReadings := by
  refine fun val => ⟨exists_accepts_packetId_iff, Field.exists_accepts_iff_of_bounds (by decide) ?_ ?_,
    Field.exists_accepts_iff_of_bounds (by decide) ?_ ?_, Field.exists_accepts_iff_of_bounds (by decide) ?_ ?_,
    Field.exists_accepts_iff_of_bounds (by decide) ?_ ?_⟩
  all_goals norm_num [Field.lo, Field.hi, Field.scale]

/-! ### The pattern of a value (R107) -/

/-- Settles O38: `n mod 2^(8w)` is `n`, or `2^(8w) + n` when `n` is negative. -/
theorem twosComplementPattern : Obligations.TwosComplementPattern := by
  intro w n hw hlo hhi
  have hlo' : 0 ≤ (2 : Int) ^ (8 * w) + n := by
    have hhalf : (2 : Int) ^ (8 * w - 1) ≤ 2 ^ (8 * w) := pow_le_pow_right₀ (by decide) (Nat.sub_le _ 1)
    omega
  refine ⟨fun hn => ?_, fun hn => ?_, List.map_congr_left fun k _ => byteOf_tc w n k⟩
  · rw [tc_cast, Int.emod_eq_of_lt hn hhi]
  · rw [tc_cast, ← Int.add_emod_left, Int.emod_eq_of_lt hlo' (by omega)]

/-! ### ScaleTrunc by exponent (R110) -/

theorem scaleTrunc_of_decompose {neg : Bool} {M : Nat} {E : Int} (h : decompose val = some (neg, M, E)) :
    ∃ n, scaleTrunc val S = some n ∧ |n| = (shiftExact (M * S) E : Int) := by
  simp only [scaleTrunc, h]
  refine ⟨_, rfl, ?_⟩
  split
  · rw [abs_neg, Nat.abs_cast]
  · exact Nat.abs_cast _

theorem f32Frac_lt (val : BitVec 32) : f32Frac val < 2 ^ 23 :=
  (val.extractLsb' 0 23).isLt

theorem decompose_of_subnormal (h : f32Exp val = 0) :
    decompose val = some (f32Sign val, f32Frac val, -149) := by
  simp [decompose, h]

theorem decompose_of_normal (h₀ : f32Exp val ≠ 0) (h₁ : f32Exp val ≠ 255) :
    decompose val = some (f32Sign val, 2 ^ 23 + f32Frac val, (f32Exp val : Int) - 150) := by
  simp only [decompose, h₀, h₁, if_false]

theorem shiftExact_of_nonneg {E : Int} (h : 0 ≤ E) (q : Nat) : shiftExact q E = q * 2 ^ E.toNat := by
  rw [shiftExact, if_pos h, Nat.shiftLeft_eq]

theorem shiftExact_of_nonpos {E : Int} (h : E ≤ 0) (q : Nat) : shiftExact q E = q / 2 ^ (-E).toNat := by
  rcases h.eq_or_lt with rfl | hneg
  · simp [shiftExact]
  · rw [shiftExact, if_neg (by omega), Nat.shiftRight_eq_div_pow]

theorem scaleTrunc_of_subnormal (hS : S ≤ 100) (h : f32Exp val = 0) : scaleTrunc val S = some 0 := by
  obtain ⟨n, hn, habs⟩ := scaleTrunc_of_decompose (S := S) (decompose_of_subnormal h)
  have hprod : f32Frac val * S ≤ 2 ^ 23 * 100 := Nat.mul_le_mul (f32Frac_lt val).le hS
  have hzero : shiftExact (f32Frac val * S) (-149) = 0 := by
    rw [shiftExact_of_nonpos (by decide)]
    exact Nat.div_eq_of_lt (hprod.trans_lt (by decide))
  rw [hzero, Nat.cast_zero, abs_eq_zero] at habs
  rw [hn, habs]

/-- From the exponent 151 on, the significand is shifted left. -/
theorem scaleTrunc_of_large (hS : 1 ≤ S) (hlo : 151 ≤ f32Exp val) (hhi : f32Exp val ≤ 254) :
    ∃ n, scaleTrunc val S = some n ∧ 16777215 < |n| := by
  obtain ⟨n, hn, habs⟩ := scaleTrunc_of_decompose (S := S) (decompose_of_normal (val := val) (by omega) (by omega))
  have hsig : 2 ^ 23 * 1 ≤ (2 ^ 23 + f32Frac val) * S := Nat.mul_le_mul (Nat.le_add_right _ _) hS
  have hexp : 1 ≤ ((f32Exp val : Int) - 150).toNat := by omega
  have hmag := Nat.mul_le_mul hsig (Nat.pow_le_pow_right two_pos hexp)
  rw [← shiftExact_of_nonneg (by omega)] at hmag
  exact ⟨n, hn, by omega⟩

/-- Up to the exponent 150 the shift makes the product of the significand no greater. -/
theorem scaleTrunc_of_small (hS : S ≤ 100) (h : f32Exp val ≤ 150) :
    ∃ n, scaleTrunc val S = some n ∧ |n| < 2 ^ 31 := by
  rcases (f32Exp val).eq_zero_or_pos with hsub | hpos
  · exact ⟨0, scaleTrunc_of_subnormal hS hsub, by decide⟩
  obtain ⟨n, hn, habs⟩ := scaleTrunc_of_decompose (S := S) (decompose_of_normal (val := val) hpos.ne' (by omega))
  have hsig : (2 ^ 23 + f32Frac val) * S ≤ 2 ^ 24 * 100 :=
    Nat.mul_le_mul (by have := f32Frac_lt val; omega) hS
  have hshift := Nat.div_le_self ((2 ^ 23 + f32Frac val) * S) (2 ^ (-((f32Exp val : Int) - 150)).toNat)
  rw [← shiftExact_of_nonpos (by omega)] at hshift
  exact ⟨n, hn, by omega⟩

theorem Field.abs_le_of_accepts {n : Int} (h : f.Accepts val n) : |n| ≤ 16777215 := by
  obtain ⟨-, hlo, hhi⟩ := h
  have hlo' : -16777215 ≤ f.lo := by cases f <;> decide
  have hhi' : f.hi ≤ 16777215 := by cases f <;> decide
  exact abs_le.2 ⟨hlo'.trans hlo, hhi.trans hhi'⟩

theorem Field.not_accepts_of_large (hf : f ≠ .packetId) (hlo : 151 ≤ f32Exp val) (hhi : f32Exp val ≤ 254) :
    ¬ ∃ n, f.Accepts val n := by
  rintro ⟨n, hacc⟩
  have hscale : 1 ≤ f.scale := by cases f <;> decide
  obtain ⟨m, hm, hlarge⟩ := scaleTrunc_of_large hscale hlo hhi
  have habs := Field.abs_le_of_accepts hacc
  obtain ⟨hscaled, -⟩ := hacc
  obtain rfl : m = n := by simpa [Field.scaled_eq_scaleTrunc hf, hm] using hscaled
  exact absurd habs (not_le.2 hlarge)

/-- Settles O41: the magnitude is the significand's product, shifted by the exponent. -/
theorem conversionBounds : Obligations.ConversionBounds := by
  intro val S hS
  obtain ⟨hlo, hhi⟩ : 1 ≤ S ∧ S ≤ 100 := by omega
  refine ⟨scaleTrunc_of_subnormal hhi,
    fun h₁ h₂ => ⟨scaleTrunc_of_large hlo h₁ h₂, fun f hf => Field.not_accepts_of_large hf h₁ h₂⟩,
    scaleTrunc_of_small hhi, fun x hx hsmall => scaleTrunc_eq_zero hx ?_⟩
  rwa [abs_mul, Nat.abs_cast]

/-! ### The laws of ScaleTrunc (R113) -/

/-- Flipping bit 31 leaves the exponent and the fraction and changes the sign (R100). -/
theorem decompose_flipSign (u : BitVec 32) :
    decompose (u ^^^ 0x80000000) = (decompose u).map fun d => (!d.1, d.2) := by
  have hexp : f32Exp (u ^^^ 0x80000000) = f32Exp u := by
    simp [f32Exp, BitVec.extractLsb'_xor]
  have hfrac : f32Frac (u ^^^ 0x80000000) = f32Frac u := by
    simp [f32Frac, BitVec.extractLsb'_xor]
  have hsign : f32Sign (u ^^^ 0x80000000) = !f32Sign u := by
    simp [f32Sign]
  simp only [decompose, hexp, hfrac, hsign]
  split
  · rfl
  · split
    · rfl
    · rfl

theorem decomposedValue_not (d : Bool × Nat × Int) : decomposedValue (!d.1, d.2) = -decomposedValue d := by
  obtain ⟨neg, M, E⟩ := d
  cases neg <;> simp [decomposedValue]

theorem valueOf_flipSign (u : BitVec 32) : valueOf (u ^^^ 0x80000000) = (valueOf u).map Neg.neg := by
  simp only [valueOf_eq_map_decompose, decompose_flipSign, Option.map_map]
  congr 1
  funext d
  exact decomposedValue_not d

theorem scaleTrunc_of_valueOf {x : ℚ} (h : valueOf val = some x) (S : Nat) :
    scaleTrunc val S = some (truncQ (x * (S : ℚ))) := by
  rw [scaleTrunc_eq_map_truncQ, h, Option.map_some]

/-- Settles O42: the laws of `trunc`, at the exact product. -/
theorem scaleTruncLaws : Obligations.ScaleTruncLaws := by
  refine ⟨fun S _ u v x y hx hy => ?_, by decide, by decide, by decide, by decide⟩
  have hflip : valueOf (u ^^^ 0x80000000) = some (-x) := by rw [valueOf_flipSign, hx, Option.map_some]
  have hprod : |x| * (S : ℚ) = |x * (S : ℚ)| := by rw [abs_mul, Nat.abs_cast]
  refine ⟨_, _, scaleTrunc_of_valueOf hx S, scaleTrunc_of_valueOf hy S, ?_, ?_, ?_, fun hxy => ?_, fun k hk => ?_⟩
  · rw [scaleTrunc_of_valueOf hflip, neg_mul, truncQ_neg]
  · rw [abs_truncQ, hprod]
    exact Int.floor_le _
  · rw [abs_truncQ, hprod]
    exact Int.lt_floor_add_one _
  · exact truncQ_mono (mul_le_mul_of_nonneg_right hxy S.cast_nonneg)
  · rw [hk, truncQ_intCast]

end Sys2Proof.Machine
end
